-- ==== Sys2Proof/Word.lean ====
section
/-!
DEFINITION. The word types of sha2-core (00_scope.md rule R7): bits numbered from 0, all words unsigned.
-/

namespace Sys2Proof

/-- A byte of MSG, of a padded message or of a digest. -/
abbrev Byte := BitVec 8

/-- A host data word (20_memory.md R56: every host access moves exactly 32 bits). -/
abbrev Word32 := BitVec 32

/-- A 64-bit quantity: LEN (R25), an accumulator's storage (R27). -/
abbrev Word64 := BitVec 64

end Sys2Proof
end

