-- ==== Sys2Proof/Syntax.lean ====
section
/-!
DEFINITION. What the host can send (30_encoding.md), what the decoder makes of it (`Instr`, one constructor per row of
spec/opcode_table.json), and the host's and the scheduler's own data.
-/

namespace Sys2Proof

/-- The two hash families, F = 0 and F = 1 (00_scope.md R1, R11). -/
inductive Family where
  /-- FAM = 0, the 32-bit family (SHA-256). -/
  | f32
  /-- FAM = 1, the 64-bit family (SHA-512). -/
  | f64
  deriving DecidableEq, Repr, Inhabited

/-- The direction of a bus transaction (R86). -/
inductive Dir where
  | rd
  | wr
  deriving DecidableEq, Repr

/-- What one line of a host program carries, raw (R86, R87): the two formats of spec/opcode_table.json. -/
inductive HostWord where
  /-- Format BUS: the tuple (TD, addr, data) of R86. `addr`, a byte address without a width (assumption 11),
  matters to MSG transactions only, `data` to writes only. -/
  | bus (td : BitVec 10) (addr : Nat) (data : Word32)
  /-- Format CMD32: a command word on its own (R80), which the host presents by a WR CMD (R88: `HASH256` is
  `WR CMD, 0x00000001`; assumption 1). -/
  | cmd (v : Word32)
  deriving DecidableEq, Repr

/-- The operations of the core: one constructor per row of spec/opcode_table.json, in its order. -/
inductive Instr where
  /-- Command word 0x00000001 (R202, F = 0). -/
  | hash256
  /-- Command word 0x00000011 (R202, F = 1). -/
  | hash512
  /-- Command word 0x00000002 (R204). -/
  | clear
  /-- Any other command word (R205). -/
  | illegalCmd (v : Word32)
  /-- WR CMD, v (R201). -/
  | wrCmd (v : Word32)
  /-- RD CMD (R210). -/
  | rdCmd
  /-- RD STATUS (R206). -/
  | rdStatus
  /-- WR STATUS, v: a write to a read-only register (R209). -/
  | wrStatus (v : Word32)
  /-- WR LEN_LO, v (R207). -/
  | wrLenLo (v : Word32)
  /-- RD LEN_LO (R215). -/
  | rdLenLo
  /-- WR LEN_HI, v (R214). -/
  | wrLenHi (v : Word32)
  /-- RD LEN_HI (R216). -/
  | rdLenHi
  /-- RD DIGEST[j] (R208). -/
  | rdDigest (j : Fin 16)
  /-- WR DIGEST[j], v: a write to a read-only register (R209). -/
  | wrDigest (j : Fin 16) (v : Word32)
  /-- WRM a, v (R211). -/
  | wrm (a : Nat) (v : Word32)
  /-- RDM a (R212). -/
  | rdm (a : Nat)
  /-- A misaligned or unmapped REG access (R213). A bad MSG address is met inside `wrm` and `rdm`, where MSG_BYTES is known. -/
  | badAccess (dir : Dir) (off : BitVec 8)
  deriving DecidableEq, Repr

/-- One line of a host program that is still to be performed (R87, R88). -/
inductive HostLine where
  /-- One transaction. -/
  | txn (w : HostWord)
  /-- WAIT (R88): `RD STATUS`, repeated while the value read has bit 0 set. -/
  | wait
  deriving DecidableEq, Repr

/-- Which agent the scheduler lets move next (00_scope.md R5, 70_reset_and_hazards.md R270, R276). -/
inductive Turn where
  /-- The host performs its next transaction. -/
  | host
  /-- The core takes its completion step, if that is enabled. -/
  | core
  /-- The external reset event, one that is not power-on (R270). -/
  | reset
  deriving DecidableEq, Repr

/-- The pseudo-instructions of R88. -/
inductive Pseudo where
  | hash256
  | hash512
  | clear
  | setLen (n : Word64)
  | loadMsg (a : Nat) (bytes : List Byte)
  | wait
  | readDigest
  deriving DecidableEq, Repr

end Sys2Proof
end

