-- ==== Sys2Proof/WellFormed.lean ====
section
/-!
DEFINITION. Which terms of `Instr` some host word encodes: a term of the two fallback rows (ILLEGAL_CMD, BAD_ACCESS) is
well formed only if no other row of the opcode table claims its word.
-/

namespace Sys2Proof

/-- The three legal command words, listed (30_encoding.md R84). -/
def isListedCommand (v : Word32) : Bool :=
  v == 0x00000001#32 || v == 0x00000011#32 || v == 0x00000002#32

/-- The REG offsets that hold a register: 0x00, 0x04, 0x08, 0x0C and 0x40 to 0x7C in words (10_state.md R22). -/
def isMappedOffset (off : BitVec 8) : Bool :=
  off.toNat % 4 == 0 && (off.toNat ≤ 0x0C || (0x40 ≤ off.toNat && off.toNat ≤ 0x7C))

/-- An instruction that some host word encodes. -/
def Instr.wf : Instr → Bool
  | .hash256 => true
  | .hash512 => true
  | .clear => true
  | .illegalCmd v => !isListedCommand v
  | .wrCmd _ => true
  | .rdCmd => true
  | .rdStatus => true
  | .wrStatus _ => true
  | .wrLenLo _ => true
  | .rdLenLo => true
  | .wrLenHi _ => true
  | .rdLenHi => true
  | .rdDigest _ => true
  | .wrDigest _ _ => true
  | .wrm _ _ => true
  | .rdm _ => true
  | .badAccess _ off => !isMappedOffset off

end Sys2Proof
end

