-- ==== Sys2Proof/Decode.lean ====
section
/-!
DEFINITION. The decoder of host words (30_encoding.md R80 to R86), total, and after it the encoder.
No host word is undecodable: the spec gives every command word and every transaction descriptor a row of the table, the
rows ILLEGAL_CMD and BAD_ACCESS being the named rejections (R83, R213).
-/

namespace Sys2Proof

/-! ## The command word (R80) -/

/-- OP, bits [3:0]. -/
def commandOp (v : Word32) : BitVec 4 := v.extractLsb' 0 4

/-- FAM, bit [4]. -/
def commandFam (v : Word32) : Bool := v.getLsbD 4

/-- RSVD, bits [31:5]. -/
def commandRsvd (v : Word32) : BitVec 27 := v.extractLsb' 5 27

/-- The family a FAM bit selects (R81: taken as is). -/
def familyOfBit (b : Bool) : Family := if b then .f64 else .f32

/-- The FAM bit of a family. -/
def Family.bit : Family → Bool
  | .f32 => false
  | .f64 => true

/-- R83: legal if and only if RSVD = 0 and either OP = 0x1, or OP = 0x2 and FAM = 0. -/
def legalCommand (v : Word32) : Bool :=
  commandRsvd v == 0#27 && (commandOp v == 0x1#4 || (commandOp v == 0x2#4 && !commandFam v))

/-- The command decoder (R82). -/
def decodeCommand (v : Word32) : Instr :=
  if legalCommand v then
    if commandOp v = 0x1#4 then
      match familyOfBit (commandFam v) with
      | .f32 => .hash256
      | .f64 => .hash512
    else .clear
  else .illegalCmd v

/-! ## The transaction descriptor TD (R86) -/

/-- TD[9]: 1 for WR, 0 for RD. -/
def tdDir (td : BitVec 10) : Dir := if td.getLsbD 9 then .wr else .rd

/-- TD[8]: 1 for MSG, 0 for REG. -/
def tdIsMsg (td : BitVec 10) : Bool := td.getLsbD 8

/-- TD[7:0]: the REG byte offset. -/
def tdOffset (td : BitVec 10) : BitVec 8 := td.extractLsb' 0 8

/-- The index j of offset 0x40 + 4j: the offset's bits [5:2]. -/
def digestIndex (off : BitVec 8) : Fin 16 :=
  ⟨(off.extractLsb' 2 4).toNat, by have := (off.extractLsb' 2 4).isLt; omega⟩

/-- The REG part of the bus decoder, in the order of R86. -/
def decodeReg (dir : Dir) (off : BitVec 8) (data : Word32) : Instr :=
  if off.extractLsb' 0 2 ≠ 0#2 then .badAccess dir off
  else if off = 0x00#8 then
    match dir with
    | .wr => .wrCmd data
    | .rd => .rdCmd
  else if off = 0x04#8 then
    match dir with
    | .wr => .wrStatus data
    | .rd => .rdStatus
  else if off = 0x08#8 then
    match dir with
    | .wr => .wrLenLo data
    | .rd => .rdLenLo
  else if off = 0x0C#8 then
    match dir with
    | .wr => .wrLenHi data
    | .rd => .rdLenHi
  else if off.extractLsb' 6 2 = 0b01#2 then
    match dir with
    | .wr => .wrDigest (digestIndex off) data
    | .rd => .rdDigest (digestIndex off)
  else .badAccess dir off

/-- The bus decoder (R86). For an MSG transaction TD[7:0] is ignored; its address is checked in its meaning (R211, R212),
because the check needs MSG_BYTES. -/
def decodeBus (td : BitVec 10) (addr : Nat) (data : Word32) : Instr :=
  if tdIsMsg td then
    match tdDir td with
    | .wr => .wrm addr data
    | .rd => .rdm addr
  else decodeReg (tdDir td) (tdOffset td) data

/-- The decoder. -/
def decode : HostWord → Instr
  | .bus td addr data => decodeBus td addr data
  | .cmd v => decodeCommand v

/-! ## The encoder -/

/-- TD from its fields: DIR at bit 9, SPACE at bit 8, OFFSET in bits [7:0]. -/
def tdOf (dir : Dir) (isMsg : Bool) (off : BitVec 8) : BitVec 10 :=
  BitVec.ofBool (dir == .wr) ++ BitVec.ofBool isMsg ++ off

/-- The offset of DIGEST[j], 0x40 + 4j (R22). -/
def digestOffset (j : Fin 16) : BitVec 8 := BitVec.ofNat 8 (0x40 + 4 * j.val)

/-- A REG write of `data` at `off` (R87: `WR`). -/
def wrReg (off : BitVec 8) (data : Word32) : HostWord := .bus (tdOf .wr false off) 0 data

/-- A REG read at `off` (R87: `RD`). -/
def rdReg (off : BitVec 8) : HostWord := .bus (tdOf .rd false off) 0 0#32

/-- The host word of an instruction; every part the spec calls ignored or gives no operand is zero. -/
def encode : Instr → HostWord
  | .hash256 => .cmd 0x00000001#32
  | .hash512 => .cmd 0x00000011#32
  | .clear => .cmd 0x00000002#32
  | .illegalCmd v => .cmd v
  | .wrCmd v => wrReg 0x00#8 v
  | .rdCmd => rdReg 0x00#8
  | .rdStatus => rdReg 0x04#8
  | .wrStatus v => wrReg 0x04#8 v
  | .wrLenLo v => wrReg 0x08#8 v
  | .rdLenLo => rdReg 0x08#8
  | .wrLenHi v => wrReg 0x0C#8 v
  | .rdLenHi => rdReg 0x0C#8
  | .rdDigest j => rdReg (digestOffset j)
  | .wrDigest j v => wrReg (digestOffset j) v
  | .wrm a v => .bus (tdOf .wr true 0#8) a v
  | .rdm a => .bus (tdOf .rd true 0#8) a 0#32
  | .badAccess dir off => .bus (tdOf dir false off) 0 0#32

/-! ## Words numbered as spec/opcode_table.json numbers them -/

/-- The host word whose table bits are `w`: a 32-bit row is a command word, a row of 10 bits (16 in whole bytes) a TD, with
address and data words of zeros. -/
def tableHostWord (nbits w : Nat) : Option HostWord :=
  if nbits = 32 then
    if w < 2 ^ 32 then some (.cmd (BitVec.ofNat 32 w)) else none
  else if 10 ≤ nbits ∧ nbits ≤ 16 then
    if w < 2 ^ 10 then some (.bus (BitVec.ofNat 10 w) 0 0#32) else none
  else none

/-- The instruction the decoder reads from the table word `w` of `nbits` bits. -/
def decodeTableWord (nbits w : Nat) : Option Instr := (tableHostWord nbits w).map decode

end Sys2Proof
end

