-- ==== Sys2Proof/Config.lean ====
section
/-!
DEFINITION. The free values: what the spec leaves unspecified after the machine goes on (93_implementation_defined.md I7, I8).
Each is an opaque constant without a body, applied to the number of the draw (a counter of `State`) and to a place, so that no
proof can rest on a value. The OPEN parameter MSG_BYTES is not here: it is a launch argument (R282), a field of `State`.
-/

namespace Sys2Proof

/-- A free 64-bit word: what an internal register holds between HASHes and after a reset event (assumption 4). -/
opaque Config.freeWord (draw place : Nat) : Word64

/-- A free count: what the sequencer's N, b and t hold between HASHes and after a reset event (assumption 4). -/
opaque Config.freeCount (draw place : Nat) : Nat

/-- A free family: what FAM_L holds between HASHes and after a reset event (assumption 4). -/
opaque Config.freeFamily (draw : Nat) : Family

end Sys2Proof
end

