-- ==== Sys2Proof/Machine/State.lean ====
section
/-!
DEFINITION. The state of sha2-core (10_state.md), as plain data, and what it holds after reset (R34).
-/

namespace Sys2Proof.Machine

/-- The codes of STATUS.ERR (60_exceptions.md R241); the reserved codes 0x5 to 0xF are no value of this type (I15). -/
inductive ErrCode where
  /-- 0x0: no error since the last HASH acceptance, CLEAR or reset. -/
  | none
  /-- 0x1: a CMD write of an illegal word. -/
  | illegalCmd
  /-- 0x2: a legal HASH word with LEN > MSG_BYTES. -/
  | lenRange
  /-- 0x3: a write to CMD, LEN_LO, LEN_HI or MSG while BUSY = 1. -/
  | busyWrite
  /-- 0x4: a misaligned, unmapped or out-of-range access, or a write to STATUS or DIGEST. -/
  | badAccess
  deriving DecidableEq, Repr

/-- The sequencer's phases (R30, R183). -/
inductive Phase where
  | idle
  | load
  | expand
  | round
  | fold
  deriving DecidableEq, Repr

/-- Eight words of `w` bits: the working registers a to h (R28), or the accumulators H[0] to H[7] (R27), number k of the one
being paired with number k of the other (a with H[0], …, h with H[7]). -/
structure Octet (w : Nat) where
  a : BitVec w
  b : BitVec w
  c : BitVec w
  d : BitVec w
  e : BitVec w
  f : BitVec w
  g : BitVec w
  h : BitVec w
  deriving DecidableEq, Repr

/-- MSG: (address, byte) pairs, addresses strictly rising, no entry equal to what an unlisted address reads as. -/
abbrev Memory := List Host.Cell

/-- The internal state, which no host access reads but through DIGEST (R27 to R30, R32). Every word is held in 64 bits of
storage; under FAM 0 bits [63:32] of the accumulators are 0 (R27). -/
structure Engine where
  /-- The accumulators H[0..7] (R27). -/
  acc : Octet 64
  /-- The working registers a to h (R28). -/
  work : Octet 64
  /-- The message schedule W[0..n-1]; n is 64 or 80 (R29). -/
  sched : Vector Word64 80
  /-- FAM_L, the family latched at acceptance (R30). -/
  famL : Family
  /-- LEN_L, the length latched at acceptance (R30). -/
  lenL : Word64
  /-- N, the block count (R30, R134). -/
  blocks : Nat
  /-- b, the block index (R30). -/
  block : Nat
  /-- t, the round or expansion index (R30). -/
  t : Nat
  /-- The phase (R30). -/
  phase : Phase
  deriving DecidableEq, Repr

/-- The state. The first part is the spec's; the last is the model's own: the other agents' data and what they observe. -/
structure State where
  /-- The launch argument MSG_BYTES (R4, R282), as the index of the last 32-bit word of MSG: MSG_BYTES is 4 times (this + 1),
  so each value here is one legal size (a positive multiple of 4, at most 2^64) and each legal size is one value. No step
  changes it. -/
  lastWord : Fin (2 ^ 62)
  /-- STATUS.BUSY (R24). -/
  busy : Bool
  /-- STATUS.DVALID (R24). -/
  dvalid : Bool
  /-- STATUS.FAM (R24). -/
  fam : Family
  /-- STATUS.ERR (R24, R241). -/
  err : ErrCode
  /-- LEN_LO (R25). -/
  lenLo : Word32
  /-- LEN_HI (R25). -/
  lenHi : Word32
  /-- The message memory MSG (R33, R50). -/
  mem : Memory
  /-- The accumulators, working registers, schedule and sequencer (R27 to R30). -/
  engine : Engine
  /-- MODEL'S OWN: the lines of its program the host has still to perform, next first (R87, R279). -/
  program : List HostLine
  /-- MODEL'S OWN: whose turn it is, next first (R5, R276); see `State.nextMove` for what happens when it is used up. -/
  turns : List Turn
  /-- MODEL'S OWN: the values the host's reads have returned, the latest first (R6). -/
  reads : List Word32
  /-- MODEL'S OWN: how many draws of free values were made (assumption 4). -/
  draws : Nat
  deriving DecidableEq, Repr

/-- Why the machine stops with a fault: it never does. The spec gives the core no trap, no bus error and no failing
computation (60_exceptions.md R240, R242, R245): every error is recorded in STATUS.ERR and the machine goes on. So this closed
inductive has no constructor. -/
inductive Fault : Type
  deriving DecidableEq, Repr

/-- Why an instruction has no meaning. -/
inductive Refusal where
  /-- Raised by `exec` for an instruction whose meaning is not written yet; safe. No arm of this model answers it. -/
  | notModelled (mnemonic : String)
  deriving DecidableEq, Repr

/-- Eight zero words. -/
def Octet.zero (w : Nat) : Octet w := ⟨0#w, 0#w, 0#w, 0#w, 0#w, 0#w, 0#w, 0#w⟩

/-- The internal state after reset. The phase is IDLE (R34); the spec gives no other value (I7, I8), and the model names zeros
(assumption 5: DESIGN CHOICE, unsafe). -/
def Engine.reset : Engine where
  acc := Octet.zero 64
  work := Octet.zero 64
  sched := Vector.replicate 80 0#64
  famL := .f32
  lenL := 0#64
  blocks := 0
  block := 0
  t := 0
  phase := .idle

/-- The state right after a power-on reset, for the launch arguments of R282: the size of MSG, its contents, the host's
program and the scheduler's choices. -/
def State.launch (lastWord : Fin (2 ^ 62)) (mem : Memory) (program : List HostLine) (turns : List Turn) : State where
  lastWord := lastWord
  busy := false
  dvalid := false
  fam := .f32
  err := .none
  lenLo := 0#32
  lenHi := 0#32
  mem := mem
  engine := Engine.reset
  program := program
  turns := turns
  reads := []
  draws := 0

/-- The state right after reset (R34, R270). The launch arguments it needs are chosen here: MSG_BYTES = 256, the size the
programs of 95_test_vectors.md use (assumption 2: DESIGN CHOICE), nothing listed in MSG (assumption 3), no host program and no
scheduler choice (assumption 6). -/
def State.reset : State := State.launch 63 [] [] []

end Sys2Proof.Machine
end

