-- ==== Sys2Proof/Machine/Ops.lean ====
section
/-!
DEFINITION. The operations over memory and registers that the meanings share: MSG, LEN, raising an error, returning a read
value, what unspecified internal state becomes.
-/

namespace Sys2Proof.Machine

/-! ## MSG as bytes (20_memory.md R50) -/

/-- What an address of MSG that is not listed reads as. Its contents at power-on are a launch argument (R68), which is
`State.mem`; this is only the byte that a list leaves out (assumption 3: DESIGN CHOICE). -/
def Memory.unlisted : Byte := 0x00#8

/-- MsgByte(a). -/
def Memory.read : Memory → Nat → Byte
  | [], _ => Memory.unlisted
  | c :: m, a => if c.1 = a then c.2 else Memory.read m a

/-- MsgByte(a) <- b, keeping the canonical form. -/
def Memory.write : Memory → Nat → Byte → Memory
  | [], a, b => if b = Memory.unlisted then [] else [(a, b)]
  | c :: m, a, b =>
    if a < c.1 then (if b = Memory.unlisted then c :: m else (a, b) :: c :: m)
    else if c.1 = a then (if b = Memory.unlisted then m else (a, b) :: m)
    else c :: Memory.write m a b

/-- The canonical form: addresses strictly rising, no entry equal to what an unlisted address reads as. -/
def Memory.wf : Memory → Bool
  | [] => true
  | c :: m => c.2 != Memory.unlisted && m.all (fun d => decide (c.1 < d.1)) && Memory.wf m

/-- Every listed address is below `n`. -/
def Memory.below (n : Nat) (m : Memory) : Bool := m.all (fun c => decide (c.1 < n))

/-! ## MSG as big-endian words (R52) -/

/-- Byte k of a word in big-endian order: byte 0 is v[31:24]. -/
def wordByte (v : Word32) (k : Nat) : Byte := v.extractLsb' (8 * (3 - k)) 8

/-- b0 || b1 || b2 || b3. -/
def packWord (b0 b1 b2 b3 : Byte) : Word32 := b0 ++ b1 ++ b2 ++ b3

/-- MemRead(MSG, a, 4). -/
def Memory.readWord (m : Memory) (a : Nat) : Word32 :=
  packWord (m.read a) (m.read (a + 1)) (m.read (a + 2)) (m.read (a + 3))

/-- MemWrite(MSG, a, 4, v). -/
def Memory.writeWord (m : Memory) (a : Nat) (v : Word32) : Memory :=
  (((m.write a (wordByte v 0)).write (a + 1) (wordByte v 1)).write (a + 2) (wordByte v 2)).write (a + 3) (wordByte v 3)

/-! ## Registers -/

/-- MSG_BYTES (R4). -/
def State.msgBytes (s : State) : Nat := 4 * (s.lastWord.val + 1)

/-- LEN = LEN_HI || LEN_LO (R25). -/
def State.len (s : State) : Word64 := s.lenHi ++ s.lenLo

/-- The first `n` bytes of MSG: the Message of a HASH of length `n` (R50). -/
def State.message (s : State) (n : Nat) : List Byte := (List.range n).map (Memory.read s.mem)

/-! ## What every transaction shares -/

/-- `raise Error(code)`: STATUS.ERR takes the code and nothing else changes (R10, R242). -/
def State.raiseError (s : State) (c : ErrCode) : State := { s with err := c }

/-- A read transaction returns `v` to the host (R6). -/
def State.returnRead (s : State) (v : Word32) : State := { s with reads := v :: s.reads }

/-- A write to CMD, LEN_LO, LEN_HI or MSG: dropped with BUSY_WRITE while BUSY = 1 (R273), else performed. -/
def State.writeUnlessBusy (s : State) (f : State → State) : State :=
  if s.busy then s.raiseError .busyWrite else f s

/-- Bad access (R213): ERR = BAD_ACCESS; a write is dropped, a read returns 0. -/
def State.badAccess (s : State) : Dir → State
  | .wr => s.raiseError .badAccess
  | .rd => (s.raiseError .badAccess).returnRead 0x00000000#32

/-! ## Unspecified internal state (R270, I7, I8) -/

/-- Eight free words of draw `d`, at the places from `p` on. -/
def freeOctet (d p : Nat) : Octet 64 :=
  ⟨Config.freeWord d p, Config.freeWord d (p + 1), Config.freeWord d (p + 2), Config.freeWord d (p + 3),
   Config.freeWord d (p + 4), Config.freeWord d (p + 5), Config.freeWord d (p + 6), Config.freeWord d (p + 7)⟩

/-- The internal state at rest with the accumulators `acc`: the phase is IDLE and every other register holds a free value of
draw `d` (assumption 4). Places 0 to 7 are a to h, 8 to 87 the schedule, 88 LEN_L; 96 to 103 serve the accumulators of a reset. -/
def Engine.atRest (d : Nat) (acc : Octet 64) : Engine where
  acc := acc
  work := freeOctet d 0
  sched := Vector.ofFn fun i : Fin 80 => Config.freeWord d (8 + i.val)
  famL := Config.freeFamily d
  lenL := Config.freeWord d 88
  blocks := Config.freeCount d 0
  block := Config.freeCount d 1
  t := Config.freeCount d 2
  phase := .idle

/-- The external reset event, not a power-on (R270, R278): STATUS and LEN are cleared and a pending completion is removed, MSG
is kept, the internal state is unspecified. -/
def State.resetEvent (s : State) : State :=
  { s with
    busy := false
    dvalid := false
    fam := .f32
    err := .none
    lenLo := 0x00000000#32
    lenHi := 0x00000000#32
    engine := Engine.atRest s.draws (freeOctet s.draws 96)
    draws := s.draws + 1 }

end Sys2Proof.Machine
end

