-- ==== Sys2Proof/Machine/Operands.lean ====
section
/-!
DEFINITION. The operand forms: the family operand of a command word (30_encoding.md R81) and the MSG byte address of WRM and
RDM with its checks (20_memory.md R55, R58). The decoder pulls the other fields out (Sys2Proof/Decode.lean).
-/

namespace Sys2Proof.Machine

/-- The family operand of a HASH word: v[4] (R81, R201). -/
def commandFamily (v : Word32) : Family := familyOfBit (commandFam v)

/-- A[1:0] ≠ 0 (R55). -/
def misaligned (a : Nat) : Bool := a % 4 != 0

/-- A + 4 > MSG_BYTES (R58). -/
def State.outOfRange (s : State) (a : Nat) : Bool := decide (a + 4 > s.msgBytes)

/-- The check WRM and RDM make of their address (R211, R212). -/
def State.badMsgAddress (s : State) (a : Nat) : Bool := misaligned a || s.outOfRange a

end Sys2Proof.Machine
end

