-- ==== Sys2Proof/Machine/Commands.lean ====
section
/-!
DEFINITION. The commands (44_commands.md R201, R202, R204, R205): HASH256, HASH512, CLEAR, ILLEGAL_CMD and WR_CMD.
Completion, R203, is a step of the core: Sys2Proof/Machine/Sequencer.lean.
-/

namespace Sys2Proof.Machine

/-- The state after an accepted HASH (R202): LEN and FAM are latched, ERR and DVALID cleared, FAM and BUSY set. -/
def State.accepted (s : State) (F : Family) : State :=
  { s with
    err := .none
    dvalid := false
    fam := F
    busy := true
    engine := { s.engine with lenL := s.len, famL := F, phase := .load } }

/-- HASH, acceptance (R202): LEN_RANGE if LEN > MSG_BYTES, with nothing else changed. -/
def State.hashAccept (s : State) (F : Family) : State :=
  if s.len.toNat > s.msgBytes then s.raiseError .lenRange else s.accepted F

/-- CLEAR (R204): H, DVALID, FAM and ERR become 0; LEN and MSG are unchanged. -/
def State.clearCommand (s : State) : State :=
  { s with dvalid := false, fam := .f32, err := .none, engine := { s.engine with acc := Octet.zero 64 } }

/-- HASH256: the command word 0x00000001 presented by a WR CMD (R201, R202). -/
def execHash256 (s : State) : Host.Outcome State Fault Refusal :=
  .next (s.writeUnlessBusy fun s => s.hashAccept .f32)

/-- HASH512: the command word 0x00000011 presented by a WR CMD (R201, R202). -/
def execHash512 (s : State) : Host.Outcome State Fault Refusal :=
  .next (s.writeUnlessBusy fun s => s.hashAccept .f64)

/-- CLEAR: the command word 0x00000002 presented by a WR CMD (R201, R204). -/
def execClear (s : State) : Host.Outcome State Fault Refusal :=
  .next (s.writeUnlessBusy fun s => s.clearCommand)

/-- An illegal command word presented by a WR CMD (R201, R205). -/
def execIllegalCmd (_v : Word32) (s : State) : Host.Outcome State Fault Refusal :=
  .next (s.writeUnlessBusy fun s => s.raiseError .illegalCmd)

/-- WR CMD, v (R201): the checks in the order of R243, then the command v carries. -/
def execWrCmd (v : Word32) (s : State) : Host.Outcome State Fault Refusal :=
  .next (s.writeUnlessBusy fun s =>
    if legalCommand v = false then s.raiseError .illegalCmd
    else if commandOp v = 0x1#4 then s.hashAccept (commandFamily v)
    else s.clearCommand)

end Sys2Proof.Machine
end

