-- ==== Sys2Proof/Machine/MessageAccess.lean ====
section
/-!
DEFINITION. The message memory accesses WRM and RDM (44_commands.md R211, R212) and the bad REG access (R213).
-/

namespace Sys2Proof.Machine

/-- WRM a, v (R211): the address checks come before the BUSY check (R243). -/
def execWrm (a : Nat) (v : Word32) (s : State) : Host.Outcome State Fault Refusal :=
  .next (if s.badMsgAddress a then s.badAccess .wr
    else s.writeUnlessBusy fun s => { s with mem := s.mem.writeWord a v })

/-- RDM a (R212). -/
def execRdm (a : Nat) (s : State) : Host.Outcome State Fault Refusal :=
  .next (if s.badMsgAddress a then s.badAccess .rd else s.returnRead (s.mem.readWord a))

/-- A misaligned or unmapped REG access (R213). -/
def execBadAccess (dir : Dir) (_off : BitVec 8) (s : State) : Host.Outcome State Fault Refusal :=
  .next (s.badAccess dir)

end Sys2Proof.Machine
end

