-- ==== Sys2Proof/Machine/BitMixer.lean ====
section
/-!
DEFINITION. The bit mixer (40_bit_mixer.md): pure total functions of w-bit words (R100). ADD_w (R101) is the addition of
`BitVec w`, NOT_w (R102) its complement.
-/

namespace Sys2Proof.Machine

/-- Three amounts of a sigma function (10_state.md R20). -/
structure Amounts where
  first : Nat
  second : Nat
  third : Nat
  deriving DecidableEq, Repr

/-- SHR_w (R103). -/
def shr {w : Nat} (x : BitVec w) (s : Nat) : BitVec w := x >>> s

/-- ROTR_w (R104): the amount is taken mod w (90_conflicts.md C3). -/
def rotr {w : Nat} (x : BitVec w) (n : Nat) : BitVec w :=
  if n % w = 0 then x else (x >>> (n % w)) ||| (x <<< (w - n % w))

/-- CH_w (R105). -/
def ch {w : Nat} (e f g : BitVec w) : BitVec w := (e &&& f) ^^^ (~~~e &&& g)

/-- MAJ_w (R106). -/
def maj {w : Nat} (a b c : BitVec w) : BitVec w := (a &&& b) ^^^ (a &&& c) ^^^ (b &&& c)

/-- A lower-case sigma: rotate, rotate, shift (R107, R108, R111, R112). -/
def smallSigma {w : Nat} (m : Amounts) (x : BitVec w) : BitVec w :=
  rotr x m.first ^^^ rotr x m.second ^^^ shr x m.third

/-- An upper-case Sigma: rotate, rotate, rotate (R109, R110, R113, R114). -/
def bigSigma {w : Nat} (m : Amounts) (x : BitVec w) : BitVec w :=
  rotr x m.first ^^^ rotr x m.second ^^^ rotr x m.third

/-- A function of one word on each of eight words. -/
def Octet.map {v w : Nat} (f : BitVec v → BitVec w) (o : Octet v) : Octet w :=
  ⟨f o.a, f o.b, f o.c, f o.d, f o.e, f o.f, f o.g, f o.h⟩

/-- Word number k of eight. -/
def Octet.word {w : Nat} (o : Octet w) (k : Nat) : BitVec w :=
  match k with
  | 0 => o.a
  | 1 => o.b
  | 2 => o.c
  | 3 => o.d
  | 4 => o.e
  | 5 => o.f
  | 6 => o.g
  | _ => o.h

end Sys2Proof.Machine
end

