-- ==== Sys2Proof/Machine/Padder.lean ====
section
/-!
DEFINITION. The padder and the block segmenter (41_padder_segmenter.md): the source's append loop on byte strings (R132, R136)
and the closed form a hardware padder computes on the fly (R133 to R135).
-/

namespace Sys2Proof.Machine

variable {w : Nat}

/-- The recorded bit length of an `len`-byte message, (8 · L) mod 2^(8·lf) (R131). -/
def bitLength (D : Desc w) (len : Nat) : Nat := 8 * len % 2 ^ (8 * D.lenBytes)

/-- Byte q of BE_k(v), the k-byte big-endian string of v mod 2^(8k); byte 0 is the most significant (R10). -/
def beByte (k v q : Nat) : Byte := BitVec.ofNat 8 (v / 2 ^ (8 * (k - 1 - q)))

/-- BE_k(v) as a byte string (R10). -/
def beBytes (k v : Nat) : List Byte := (List.range k).map (beByte k v)

/-! ## The source's form -/

/-- The loop of R132: append 0x00 while (len(p)·8 + 8·lf) mod (8·bs) ≠ 0. The first argument bounds its turns; bs turns are
enough (R133: 0 ≤ z ≤ bs-1). -/
def appendZeros (D : Desc w) : Nat → List Byte → List Byte
  | 0, p => p
  | n + 1, p =>
    if (p.length * 8 + 8 * D.lenBytes) % (8 * D.blockBytes) ≠ 0 then appendZeros D n (p ++ [0x00#8]) else p

/-- pad_F(m) (R132). -/
def pad (D : Desc w) (m : List Byte) : List Byte :=
  appendZeros D D.blockBytes (m ++ [0x80#8]) ++ beBytes D.lenBytes (bitLength D m.length)

/-- Block_k of a padded message (R136): its bytes from k·bs on, bs of them. -/
def blockOf (D : Desc w) (p : List Byte) (k : Nat) : List Byte := (p.drop (k * D.blockBytes)).take D.blockBytes

/-- The blocks of a padded message, in increasing k (R136, R137). -/
def blocksOf (D : Desc w) (p : List Byte) : List (List Byte) :=
  (List.range (p.length / D.blockBytes)).map (blockOf D p)

/-! ## The closed form -/

/-- The zero-fill count z = (-(L + 1 + lf)) mod bs (R133). -/
def zeroFill (D : Desc w) (len : Nat) : Nat :=
  (D.blockBytes - (len + 1 + D.lenBytes) % D.blockBytes) % D.blockBytes

/-- The padded length P = L + 1 + z + lf (R134). -/
def paddedLength (D : Desc w) (len : Nat) : Nat := len + 1 + zeroFill D len + D.lenBytes

/-- The block count N = P / bs (R134). -/
def blockCount (D : Desc w) (len : Nat) : Nat := paddedLength D len / D.blockBytes

/-- The padded byte PB(p) of the `len`-byte message whose byte i is `msg i` (R135). -/
def paddedByte (D : Desc w) (msg : Nat → Byte) (len p : Nat) : Byte :=
  if p < len then msg p
  else if p = len then 0x80#8
  else if p < paddedLength D len - D.lenBytes then 0x00#8
  else beByte D.lenBytes (bitLength D len) (p - (paddedLength D len - D.lenBytes))

end Sys2Proof.Machine
end

