-- ==== Sys2Proof/Machine/Schedule.lean ====
section
/-!
DEFINITION. The message schedule expander (42_message_schedule.md).
-/

namespace Sys2Proof.Machine

variable {w : Nat}

/-- BEdec of the first `n` bytes `bytes 0`, `bytes 1`, …, as a w-bit word (R10, R150). -/
def beWord (w : Nat) (bytes : Nat → Byte) : Nat → BitVec w
  | 0 => 0#w
  | n + 1 => (beWord w bytes n <<< 8) ||| (bytes n).setWidth w

/-- Schedule word W[i], i ≥ 16, from the four earlier words it reads (R151). -/
def nextWord (D : Desc w) (w16 w15 w7 w2 : BitVec w) : BitVec w :=
  w16 + smallSigma D.s0 w15 + w7 + smallSigma D.s1 w2

/-- Schedule words 0 to 15 of a block (R150). -/
def decodeWords (D : Desc w) (block : List Byte) : List (BitVec w) :=
  (List.range 16).map fun j => beWord w (fun i => block.getD (j * D.wordBytes + i) 0#8) D.wordBytes

/-- The expansion loop (R151): `n` further words after those in `ws`, each from the words at distance 16, 15, 7 and 2. -/
def expandWords (D : Desc w) : Nat → List (BitVec w) → List (BitVec w)
  | 0, ws => ws
  | n + 1, ws =>
    let i := ws.length
    expandWords D n
      (ws ++ [nextWord D (ws.getD (i - 16) 0#w) (ws.getD (i - 15) 0#w) (ws.getD (i - 7) 0#w) (ws.getD (i - 2) 0#w)])

/-- schedule_F(block): W[0..n-1] (R150, R151). -/
def schedule (D : Desc w) (block : List Byte) : List (BitVec w) :=
  expandWords D (D.rounds - 16) (decodeWords D block)

end Sys2Proof.Machine
end

