-- ==== Sys2Proof/Machine/Compression.lean ====
section
/-!
DEFINITION. The compression round function, the fold and the hash function SHA_F in the source's form (43_compression.md
R174 to R179).
-/

namespace Sys2Proof.Machine

variable {w : Nat}

/-- One round (R175): every right-hand side reads the values from before the round. -/
def roundStep (D : Desc w) (kt wt : BitVec w) (v : Octet w) : Octet w :=
  let t1 := v.h + bigSigma D.u1 v.e + ch v.e v.f v.g + kt + wt
  let t2 := bigSigma D.u0 v.a + maj v.a v.b v.c
  { a := t1 + t2, b := v.a, c := v.b, d := v.c, e := v.d + t1, f := v.e, g := v.f, h := v.g }

/-- The rounds t = i, i+1, …, `n` of them, round t using K_F[t] and W[t] (R176). -/
def roundsFrom (D : Desc w) (ws : List (BitVec w)) : Nat → Nat → Octet w → Octet w
  | 0, _, v => v
  | n + 1, i, v => roundsFrom D ws n (i + 1) (roundStep D (D.k.getD i 0#w) (ws.getD i 0#w) v)

/-- State folding (R177): number by number, mod 2^w. -/
def foldInto (h v : Octet w) : Octet w where
  a := h.a + v.a
  b := h.b + v.b
  c := h.c + v.c
  d := h.d + v.d
  e := h.e + v.e
  f := h.f + v.f
  g := h.g + v.g
  h := h.h + v.h

/-- One block: schedule, working copy, rounds, fold (R174, R178). -/
def compressBlock (D : Desc w) (h : Octet w) (block : List Byte) : Octet w :=
  foldInto h (roundsFrom D (schedule D block) D.rounds 0 h)

/-- SHA_F(m) for the family of `D` (R179): every block of the padded message, in order (R178, R182). -/
def shaWith (D : Desc w) (m : List Byte) : Octet w := (blocksOf D (pad D m)).foldl (compressBlock D) D.iv

/-- SHA_F(m) (R179). -/
def sha (F : Family) (m : List Byte) : Octet F.width := shaWith (descOf F) m

end Sys2Proof.Machine
end

