-- ==== Sys2Proof/Machine/Sequencer.lean ====
section
/-!
DEFINITION. The sequencer and the registers it works on (10_state.md R28 to R30, 43_compression.md R183): the reference
sequence LOAD, EXPAND, ROUND, FOLD per block, one word, round or fold at a time, with the padding produced on the fly (R135).
The whole sequence of a HASH is one step of the core (R5, R32, R203).
-/

namespace Sys2Proof.Machine

variable {w : Nat}

/-- A w-bit word in 64 bits of storage (R27). -/
def toStore (x : BitVec w) : Word64 := x.setWidth 64

/-- The w-bit word a storage word holds. -/
def ofStore (w : Nat) (x : Word64) : BitVec w := x.setWidth w

/-- W[t] as a w-bit word. -/
def Engine.wordAt (w : Nat) (e : Engine) (t : Nat) : BitVec w := ofStore w (e.sched[t]?.getD 0#64)

/-- The start of a HASH: H <- IV_F (R178), N from LEN_L (R134), b = 0, phase LOAD. -/
def Engine.begin (D : Desc w) (e : Engine) : Engine :=
  { e with acc := D.iv.map toStore, blocks := blockCount D e.lenL.toNat, block := 0, t := 0, phase := .load }

/-- LOAD: W[t] from Block_b, t = 0 to 15 (R150, bytes from R135). -/
def Engine.loadStep (D : Desc w) (msg : Nat → Byte) (e : Engine) : Engine :=
  { e with
    sched := e.sched.setIfInBounds e.t (toStore (beWord w
      (fun i => paddedByte D msg e.lenL.toNat (e.block * D.blockBytes + (e.t * D.wordBytes + i))) D.wordBytes))
    t := e.t + 1
    phase := if e.t + 1 = 16 then .expand else .load }

/-- EXPAND: W[t], t = 16 to n-1 (R151); after the last word the working copy is loaded, (a..h) <- H (R174). -/
def Engine.expandStep (D : Desc w) (e : Engine) : Engine :=
  { e with
    sched := e.sched.setIfInBounds e.t (toStore (nextWord D
      (e.wordAt w (e.t - 16)) (e.wordAt w (e.t - 15)) (e.wordAt w (e.t - 7)) (e.wordAt w (e.t - 2))))
    work := if e.t + 1 = D.rounds then e.acc else e.work
    t := if e.t + 1 = D.rounds then 0 else e.t + 1
    phase := if e.t + 1 = D.rounds then .round else .expand }

/-- ROUND: round t, t = 0 to n-1 (R175, R176). -/
def Engine.roundStep (D : Desc w) (e : Engine) : Engine :=
  { e with
    work := (Machine.roundStep D (D.k.getD e.t 0#w) (e.wordAt w e.t) (e.work.map (ofStore w))).map toStore
    t := e.t + 1
    phase := if e.t + 1 = D.rounds then .fold else .round }

/-- FOLD: H <- H + (a..h) (R177); then the next block, or IDLE after the last (R183). -/
def Engine.foldStep (w : Nat) (e : Engine) : Engine :=
  { e with
    acc := (foldInto (e.acc.map (ofStore w)) (e.work.map (ofStore w))).map toStore
    block := e.block + 1
    t := 0
    phase := if e.block + 1 = e.blocks then .idle else .load }

/-- One micro-step of the reference sequence (R183). -/
def Engine.advance (D : Desc w) (msg : Nat → Byte) (e : Engine) : Engine :=
  match e.phase with
  | .idle => e
  | .load => e.loadStep D msg
  | .expand => e.expandStep D
  | .round => e.roundStep D
  | .fold => e.foldStep w

/-- `n` micro-steps. -/
def Engine.run (D : Desc w) (msg : Nat → Byte) : Nat → Engine → Engine
  | 0, e => e
  | n + 1, e => Engine.run D msg n (e.advance D msg)

/-- The micro-steps of one block: 16 loads, n - 16 expansions, n rounds, one fold. -/
def blockSteps (D : Desc w) : Nat := 16 + (D.rounds - 16) + D.rounds + 1

/-- The whole reference sequence of the HASH whose family and length are latched, with the message bytes `msg` (R183). -/
def Engine.hash (msg : Nat → Byte) (e : Engine) : Engine :=
  Engine.run (descOf e.famL) msg (blockCount (descOf e.famL) e.lenL.toNat * blockSteps (descOf e.famL))
    (e.begin (descOf e.famL))

/-- HASH, completion (R203): the reference sequence of R183 gives H, DVALID is set and BUSY cleared; ERR and FAM are unchanged.
What the sequence leaves in the other internal registers is unspecified (I8; assumption 4). -/
def State.complete (s : State) : State :=
  { s with
    dvalid := true
    busy := false
    engine := Engine.atRest s.draws (s.engine.hash (Memory.read s.mem)).acc
    draws := s.draws + 1 }

end Sys2Proof.Machine
end

