-- ==== Sys2Proof/Machine/Digest.lean ====
section
/-!
DEFINITION. The digest assembler (43_compression.md R180) and the DIGEST registers (10_state.md R26, 44_commands.md R208).
-/

namespace Sys2Proof.Machine

variable {w : Nat}

/-- The digest bytes D = BE_wb(H[0]) || … || BE_wb(H[7]) (R180). -/
def digestBytes (D : Desc w) (h : Octet w) : List Byte :=
  (List.range 8).flatMap fun k => beBytes D.wordBytes (h.word k).toNat

/-- What a read of DIGEST[j] returns (R208). -/
def State.digestWord (s : State) (j : Fin 16) : Word32 :=
  if s.dvalid = false then 0x00000000#32
  else
    match s.fam with
    | .f32 => if j.val < 8 then (s.engine.acc.word j.val).extractLsb' 0 32 else 0x00000000#32
    | .f64 =>
      if j.val % 2 = 0 then (s.engine.acc.word (j.val / 2)).extractLsb' 32 32
      else (s.engine.acc.word ((j.val - 1) / 2)).extractLsb' 0 32

end Sys2Proof.Machine
end

