-- ==== Sys2Proof/Machine/Flags.lean ====
section
/-!
DEFINITION. The core's only status indications (10_state.md R35): the error codes and the STATUS word (R24, R206, R241).
The core has no condition flag, carry or overflow.
-/

namespace Sys2Proof.Machine

/-- The code of an error (R241). -/
def ErrCode.code : ErrCode → BitVec 4
  | .none => 0x0#4
  | .illegalCmd => 0x1#4
  | .lenRange => 0x2#4
  | .busyWrite => 0x3#4
  | .badAccess => 0x4#4

/-- The STATUS word (R24, R206): ERR in bits [7:4], bit 3 zero, FAM in bit 2, DVALID in bit 1, BUSY in bit 0, bits [31:8] zero. -/
def State.statusWord (s : State) : Word32 :=
  (s.err.code ++ 0#1 ++ BitVec.ofBool s.fam.bit ++ BitVec.ofBool s.dvalid ++ BitVec.ofBool s.busy).setWidth 32

end Sys2Proof.Machine
end

