-- ==== Sys2Proof/Machine/Registers.lean ====
section
/-!
DEFINITION. The register accesses (44_commands.md section 2): RD CMD, RD and WR of STATUS, LEN_LO, LEN_HI and DIGEST[j].
-/

namespace Sys2Proof.Machine

/-- RD CMD (R210): returns 0. -/
def execRdCmd (s : State) : Host.Outcome State Fault Refusal :=
  .next (s.returnRead 0x00000000#32)

/-- RD STATUS (R206): no side effect. -/
def execRdStatus (s : State) : Host.Outcome State Fault Refusal :=
  .next (s.returnRead s.statusWord)

/-- WR STATUS, v (R209): a write to a read-only register. -/
def execWrStatus (_v : Word32) (s : State) : Host.Outcome State Fault Refusal :=
  .next (s.badAccess .wr)

/-- WR LEN_LO, v (R207). -/
def execWrLenLo (v : Word32) (s : State) : Host.Outcome State Fault Refusal :=
  .next (s.writeUnlessBusy fun s => { s with lenLo := v })

/-- RD LEN_LO (R215). -/
def execRdLenLo (s : State) : Host.Outcome State Fault Refusal :=
  .next (s.returnRead s.lenLo)

/-- WR LEN_HI, v (R214). -/
def execWrLenHi (v : Word32) (s : State) : Host.Outcome State Fault Refusal :=
  .next (s.writeUnlessBusy fun s => { s with lenHi := v })

/-- RD LEN_HI (R216). -/
def execRdLenHi (s : State) : Host.Outcome State Fault Refusal :=
  .next (s.returnRead s.lenHi)

/-- RD DIGEST[j] (R208). -/
def execRdDigest (j : Fin 16) (s : State) : Host.Outcome State Fault Refusal :=
  .next (s.returnRead (s.digestWord j))

/-- WR DIGEST[j], v (R209): a write to a read-only register. -/
def execWrDigest (_j : Fin 16) (_v : Word32) (s : State) : Host.Outcome State Fault Refusal :=
  .next (s.badAccess .wr)

end Sys2Proof.Machine
end

