-- ==== Sys2Proof/Machine/Dispatch.lean ====
section
/-!
DEFINITION. exec: one arm per constructor of Instr, each one direct call of its meaning.
-/

namespace Sys2Proof.Machine

def exec (i : Instr) (s : State) : Host.Outcome State Fault Refusal :=
  match i with
  -- Command words
  | .hash256 => Sys2Proof.Machine.execHash256 s
  | .hash512 => Sys2Proof.Machine.execHash512 s
  | .clear => Sys2Proof.Machine.execClear s
  | .illegalCmd v => Sys2Proof.Machine.execIllegalCmd v s
  -- REG transactions
  | .wrCmd v => Sys2Proof.Machine.execWrCmd v s
  | .rdCmd => Sys2Proof.Machine.execRdCmd s
  | .rdStatus => Sys2Proof.Machine.execRdStatus s
  | .wrStatus v => Sys2Proof.Machine.execWrStatus v s
  | .wrLenLo v => Sys2Proof.Machine.execWrLenLo v s
  | .rdLenLo => Sys2Proof.Machine.execRdLenLo s
  | .wrLenHi v => Sys2Proof.Machine.execWrLenHi v s
  | .rdLenHi => Sys2Proof.Machine.execRdLenHi s
  | .rdDigest j => Sys2Proof.Machine.execRdDigest j s
  | .wrDigest j v => Sys2Proof.Machine.execWrDigest j v s
  -- MSG transactions
  | .wrm a v => Sys2Proof.Machine.execWrm a v s
  | .rdm a => Sys2Proof.Machine.execRdm a s
  -- The fallback row
  | .badAccess dir off => Sys2Proof.Machine.execBadAccess dir off s

end Sys2Proof.Machine
end

