-- ==== Sys2Proof/Machine/Scheduler.lean ====
section
/-!
DEFINITION. Which agent moves next (00_scope.md R5, 20_memory.md R61, 70_reset_and_hazards.md R270, R276, R279): the host, the
core, or the reset event. The choices the spec leaves to a weakly fair scheduler are the list `State.turns`, finite data, so
that a statement about every state is one about every schedule.
-/

namespace Sys2Proof.Machine

/-- What happens in a step. -/
inductive Move where
  /-- The host performs the transaction of this host word. -/
  | transact (w : HostWord)
  /-- The core takes its completion step. -/
  | complete
  /-- The reset event. -/
  | reset
  /-- Nothing: no host line is left, or a turn fell to the core while no completion is enabled (R253). -/
  | idle
  deriving DecidableEq, Repr

/-- The host's next move and the state in which it is performed: its next line is taken off its program, but a WAIT stays
while the STATUS read it is about to make returns BUSY = 1 (R88). -/
def State.hostMove (s : State) : Move × State :=
  match s.program with
  | [] => (.idle, s)
  | .txn w :: rest => (.transact w, { s with program := rest })
  | .wait :: rest => (.transact (rdReg 0x04#8), if s.busy then s else { s with program := rest })

/-- The core's next move: completion, enabled if and only if BUSY = 1 (R203). -/
def State.coreMove (s : State) : Move × State :=
  if s.busy then (.complete, s) else (.idle, s)

/-- The next move: the next turn's, or, when the list of turns is used up, the completion step if it is enabled (weak
fairness, R276) and the host's next line if not. -/
def State.nextMove (s : State) : Move × State :=
  match s.turns with
  | .host :: ts => State.hostMove { s with turns := ts }
  | .core :: ts => State.coreMove { s with turns := ts }
  | .reset :: ts => (.reset, { s with turns := ts })
  | [] => if s.busy then s.coreMove else s.hostMove

/-- The state whose very next step performs the host word `w`: the host has the turn and `w` is its next line. -/
def State.withHostWord (s : State) (w : HostWord) : State :=
  { s with program := .txn w :: s.program, turns := .host :: s.turns }

end Sys2Proof.Machine
end

