-- ==== Sys2Proof/Machine/Step.lean ====
section
/-!
DEFINITION. One step: a host transaction, the core's completion, or the reset event (00_scope.md R5, R270).
-/

namespace Sys2Proof.Machine

/-- One step of the machine. -/
def step (s : State) : Host.Outcome State Fault Refusal :=
  match s.nextMove with
  | (.transact w, s') => exec (decode w) s'
  | (.complete, s') => .next s'.complete
  | (.reset, s') => .next s'.resetEvent
  | (.idle, s') => .next s'

/-- `s` with the table word `w` as the transaction its next step performs. -/
def State.withFetchWord (s : State) (nbits w : Nat) : State :=
  match tableHostWord nbits w with
  | some hw => s.withHostWord hw
  | none => s

end Sys2Proof.Machine
end

