-- ==== Sys2Proof/Machine/Assembler.lean ====
section
/-!
DEFINITION. The host's pseudo-instructions and their expansions (30_encoding.md R87, R88).
-/

namespace Sys2Proof.Machine

/-- `WRM a, v` (R87). -/
def wrmLine (a : Nat) (v : Word32) : HostLine := .txn (.bus (tdOf .wr true 0x00#8) a v)

/-- Word j of a byte string in big-endian order, bytes past its end 0x00 (R88, LOADMSG). -/
def stringWord (bytes : List Byte) (j : Nat) : Word32 :=
  packWord (bytes.getD (4 * j) 0x00#8) (bytes.getD (4 * j + 1) 0x00#8) (bytes.getD (4 * j + 2) 0x00#8)
    (bytes.getD (4 * j + 3) 0x00#8)

end Sys2Proof.Machine

namespace Sys2Proof

open Sys2Proof.Machine

/-- The host lines of a pseudo-instruction (R88). -/
def Pseudo.expand : Pseudo → List HostLine
  | .hash256 => [.txn (wrReg 0x00#8 0x00000001#32)]
  | .hash512 => [.txn (wrReg 0x00#8 0x00000011#32)]
  | .clear => [.txn (wrReg 0x00#8 0x00000002#32)]
  | .setLen n => [.txn (wrReg 0x08#8 (n.extractLsb' 0 32)), .txn (wrReg 0x0C#8 (n.extractLsb' 32 32))]
  | .loadMsg a bytes =>
    (List.range ((bytes.length + 3) / 4)).map fun j => wrmLine (a + 4 * j) (stringWord bytes j)
  | .wait => [.wait]
  | .readDigest => (List.range 16).map fun j => .txn (rdReg (BitVec.ofNat 8 (0x40 + 4 * j)))

end Sys2Proof
end

