-- ==== Sys2Proof/Safety.lean ====
section
/-!
DEFINITION. What counts as a legal state and a safe step, in the terms the statements use.
-/

namespace Sys2Proof.Machine

/-- The upper halves of eight storage words are zero (R27, under FAM 0). -/
def Octet.narrow (o : Octet 64) : Prop := ∀ k, k < 8 → (o.word k).extractLsb' 32 32 = 0#32

/-- What holds of every state a run reaches from a legal launch. -/
structure State.Inv (s : State) : Prop where
  /-- MSG keeps its canonical form. -/
  memCanonical : Memory.wf s.mem = true
  /-- Only addresses of MSG are listed (R50). -/
  memInRange : Memory.below s.msgBytes s.mem = true
  /-- BUSY = 1 implies DVALID = 0 (R24). -/
  busyNotValid : s.busy = true → s.dvalid = false
  /-- A HASH in progress stands at LOAD (R202). -/
  busyAtLoad : s.busy = true → s.engine.phase = .load
  /-- No HASH in progress: the sequencer is idle (R203, R34). -/
  idleAtRest : s.busy = false → s.engine.phase = .idle
  /-- The length of a HASH in progress is in range (R130). -/
  lengthInRange : s.busy = true → s.engine.lenL.toNat ≤ s.msgBytes
  /-- The latched length is LEN, which cannot change while BUSY = 1 (R56, R273). -/
  lengthLatched : s.busy = true → s.engine.lenL = s.len
  /-- The latched family is STATUS.FAM (R202). -/
  familyLatched : s.busy = true → s.engine.famL = s.fam
  /-- A valid 32-bit digest stands in the low halves of the accumulators (R27). -/
  narrowAcc : s.dvalid = true → s.fam = .f32 → s.engine.acc.narrow

/-- The state after `n` steps of a machine that never stops. -/
def State.after : Nat → State → State
  | 0, s => s
  | n + 1, s =>
    match step s with
    | .next t => State.after n t
    | .fault _ => s
    | .refused _ => s

/-- The state after the host performs these transactions one after another, with no step of the core between them. -/
def State.performAll : State → List HostWord → State
  | s, [] => s
  | s, w :: ws =>
    match exec (decode w) s with
    | .next t => State.performAll t ws
    | .fault _ => s
    | .refused _ => s

/-- Two states differ at most in STATUS.ERR and in the values the host has read: what an error may change (R242). -/
def SameButErrAndReads (s t : State) : Prop := t = { s with err := t.err, reads := t.reads }

/-- The digest a completion puts into the accumulators: SHA_F of the first LEN_L bytes of MSG, F = FAM_L, each word in 64 bits
of storage (R203, R27). -/
def State.expectedDigest (s : State) : Octet 64 :=
  (sha s.engine.famL (s.message s.engine.lenL.toNat)).map toStore

end Sys2Proof.Machine
end

