-- ==== Sys2Proof/Certificates/Slice0/Obligations.lean ====
section
/-!
DEFINITION. The statements for the provers, family by family; each docstring names the rule of spec/ it formalises.
-/

open Sys2Proof Sys2Proof.Machine

/-! ## Encoding and decoding -/

/-- 30_encoding.md R80, R84, R86: no bit of an encoding is dropped. -/
def Obligations.DecodeOfEncode : Prop := ∀ i : Instr, i.wf = true → decode (encode i) = i

/-- 30_encoding.md R82, R86: the decoder is total and its fallback rows claim only words no other row claims. -/
def Obligations.DecodedIsWellFormed : Prop := ∀ w : HostWord, (decode w).wf = true

/-- 95_test_vectors.md 2.6, 30_encoding.md R86: words written out from the spec's encodings. -/
def Obligations.SpecWordsDecode : Prop :=
  decode (.cmd 0b00000000000000000000000000000001#32) = .hash256 ∧
  decode (.cmd 0b00000000000000000000000000010001#32) = .hash512 ∧
  decode (.cmd 0b00000000000000000000000000000010#32) = .clear ∧
  decode (.cmd 0b00000000000000000000000000010010#32) = .illegalCmd 0x00000012#32 ∧
  decode (.bus 0b1000000000#10 0 0x00000011#32) = .wrCmd 0x00000011#32 ∧
  decode (.bus 0b0000000100#10 0 0#32) = .rdStatus ∧
  decode (.bus 0b1000001000#10 0 0x00000038#32) = .wrLenLo 0x00000038#32 ∧
  decode (.bus 0b0001111100#10 0 0#32) = .rdDigest 15 ∧
  decode (.bus 0b1100000000#10 0x4 0x11223344#32) = .wrm 0x4 0x11223344#32 ∧
  decode (.bus 0b0100000000#10 0x4 0#32) = .rdm 0x4 ∧
  decode (.bus 0b0000010000#10 0 0#32) = .badAccess .rd 0x10#8 ∧
  decode (.bus 0b1000000001#10 0 0#32) = .badAccess .wr 0x01#8

/-- 30_encoding.md R84: exactly three command words are legal, R83's test picks them out, the decoder gives each its row, and
every illegal word behaves alike. -/
def Obligations.ExactlyThreeLegalCommands : Prop :=
  ∀ v : Word32,
    (legalCommand v = true ↔ v = 0x00000001#32 ∨ v = 0x00000011#32 ∨ v = 0x00000002#32) ∧
    (legalCommand v = true ↔ v.extractLsb' 5 27 = 0#27 ∧
      (v.extractLsb' 0 4 = 0x1#4 ∨ (v.extractLsb' 0 4 = 0x2#4 ∧ v.getLsbD 4 = false))) ∧
    (decode (.cmd v) = .hash256 ↔ v = 0x00000001#32) ∧
    (decode (.cmd v) = .hash512 ↔ v = 0x00000011#32) ∧
    (decode (.cmd v) = .clear ↔ v = 0x00000002#32) ∧
    (legalCommand v = false → decode (.cmd v) = .illegalCmd v) ∧
    (∀ v' : Word32, legalCommand v = false → legalCommand v' = false →
      ∀ s, exec (decode (.cmd v)) s = exec (decode (.cmd v')) s)

/-- 30_encoding.md R86: a REG transaction is a bad access exactly at a misaligned or unmapped offset, in either direction, and
TD[7:0] is ignored for MSG. -/
def Obligations.BusDecodesUnmappedOffsets : Prop :=
  ∀ (dir : Dir) (off : BitVec 8) (addr : Nat) (data : Word32),
    (decode (.bus (tdOf dir false off) addr data) = .badAccess dir off ↔
      off.toNat % 4 ≠ 0 ∨ (0x10 ≤ off.toNat ∧ off.toNat ≤ 0x3F) ∨ 0x80 ≤ off.toNat) ∧
    (decode (.bus (tdOf .wr true off) addr data) = .wrm addr data) ∧
    (decode (.bus (tdOf .rd true off) addr data) = .rdm addr)

/-- 44_commands.md R200, 20_memory.md R61: when the host has the turn, or no turn is left and BUSY = 0, a step performs exactly
the transaction on the host's next line; in particular the transaction `withHostWord` places. That the
program and the turns are data of the state is the model's choice (assumption 6). -/
def Obligations.StepRunsTheDecodedTransaction : Prop :=
  ∀ (s : State) (w : HostWord),
    step (s.withHostWord w) = exec (decode w) s ∧
    (∀ rest ts, s.program = .txn w :: rest → s.turns = .host :: ts →
      step s = exec (decode w) { s with program := rest, turns := ts }) ∧
    (∀ rest, s.program = .txn w :: rest → s.turns = [] → s.busy = false →
      step s = exec (decode w) { s with program := rest })

/-- 30_encoding.md R88, 44_commands.md R201: a command word on its own line has the effect of the WR CMD that carries it (the
model's choice, assumption 1). -/
def Obligations.CommandLineActsAsWrCmd : Prop :=
  ∀ (v : Word32) (s : State), exec (decode (.cmd v)) s = exec (.wrCmd v) s

/-! ## Commands -/

/-- 44_commands.md R202: HASH is accepted if LEN ≤ MSG_BYTES, and every DIGEST word reads 0 from then on; it is rejected with
LEN_RANGE, nothing else changed, if not. The rest of the state is unchanged in both cases. -/
def Obligations.HashIsAcceptedOrOutOfRange : Prop :=
  ∀ (s : State) (F : Family) (i : Instr), (i = .hash256 ∧ F = .f32 ∨ i = .hash512 ∧ F = .f64) → s.busy = false →
    ((s.lenHi ++ s.lenLo).toNat ≤ 4 * (s.lastWord.val + 1) →
      ∃ t, exec i s = .next t ∧
        t = { s with
          err := .none, dvalid := false, fam := F, busy := true
          engine := { s.engine with lenL := s.lenHi ++ s.lenLo, famL := F, phase := .load } } ∧
        ∀ j, exec (.rdDigest j) t = .next { t with reads := 0x00000000#32 :: t.reads }) ∧
    (4 * (s.lastWord.val + 1) < (s.lenHi ++ s.lenLo).toNat → exec i s = .next { s with err := .lenRange })

/-- 44_commands.md R201: what a CMD write does, for every data word. -/
def Obligations.WrCmdSelectsTheCommand : Prop :=
  ∀ (v : Word32) (s : State),
    (s.busy = true → exec (.wrCmd v) s = .next { s with err := .busyWrite }) ∧
    (s.busy = false → v = 0x00000002#32 →
      exec (.wrCmd v) s = .next { s with
        dvalid := false, fam := .f32, err := .none, engine := { s.engine with acc := Octet.zero 64 } }) ∧
    (s.busy = false → v ≠ 0x00000001#32 → v ≠ 0x00000011#32 → v ≠ 0x00000002#32 →
      exec (.wrCmd v) s = .next { s with err := .illegalCmd }) ∧
    (∀ F, s.busy = false → (v = 0x00000001#32 ∧ F = Family.f32 ∨ v = 0x00000011#32 ∧ F = Family.f64) →
      (4 * (s.lastWord.val + 1) < (s.lenHi ++ s.lenLo).toNat → exec (.wrCmd v) s = .next { s with err := .lenRange }) ∧
      ((s.lenHi ++ s.lenLo).toNat ≤ 4 * (s.lastWord.val + 1) →
        exec (.wrCmd v) s = .next { s with
          err := .none, dvalid := false, fam := F, busy := true
          engine := { s.engine with lenL := s.lenHi ++ s.lenLo, famL := F, phase := .load } }))

/-- 44_commands.md R204: CLEAR, its STATUS word and its DIGEST reads; the word of CLEAR with FAM = 1 is illegal. -/
def Obligations.ClearWipesDigestAndError : Prop :=
  decode (.cmd 0x00000002#32) = .clear ∧ decode (.cmd 0x00000012#32) = .illegalCmd 0x00000012#32 ∧
  ∀ s : State, s.busy = false →
    ∃ t, exec .clear s = .next t ∧
      t = { s with dvalid := false, fam := .f32, err := .none, engine := { s.engine with acc := t.engine.acc } } ∧
      (∀ k, k < 8 → t.engine.acc.word k = 0#64) ∧
      t.statusWord = 0x00000000#32 ∧
      ∀ j, exec (.rdDigest j) t = .next { t with reads := 0x00000000#32 :: t.reads }

/-- 44_commands.md R205: an illegal command word changes ERR only. -/
def Obligations.IllegalCommandSetsErrOnly : Prop :=
  ∀ (v : Word32) (s : State),
    v ≠ 0x00000001#32 → v ≠ 0x00000011#32 → v ≠ 0x00000002#32 →
    (s.busy = false → exec (.illegalCmd v) s = .next { s with err := .illegalCmd } ∧
      exec (.wrCmd v) s = .next { s with err := .illegalCmd }) ∧
    (s.busy = true → exec (.illegalCmd v) s = .next { s with err := .busyWrite } ∧
      exec (.wrCmd v) s = .next { s with err := .busyWrite })

/-- 70_reset_and_hazards.md R273: while BUSY = 1 every write to CMD, LEN or MSG is dropped with BUSY_WRITE. -/
def Obligations.WritesWhileBusyAreDropped : Prop :=
  ∀ s : State, s.busy = true → ∀ v : Word32,
    exec .hash256 s = .next { s with err := .busyWrite } ∧
    exec .hash512 s = .next { s with err := .busyWrite } ∧
    exec .clear s = .next { s with err := .busyWrite } ∧
    exec (.wrCmd v) s = .next { s with err := .busyWrite } ∧
    exec (.wrLenLo v) s = .next { s with err := .busyWrite } ∧
    exec (.wrLenHi v) s = .next { s with err := .busyWrite } ∧
    ∀ a : Nat, a % 4 = 0 → a + 4 ≤ s.msgBytes →
      exec (.wrm a v) s = .next { s with err := .busyWrite }

/-! ## Registers -/

/-- 44_commands.md R206, 10_state.md R24: the STATUS word, bit by bit; the read has no side effect. -/
def Obligations.RdStatusReturnsTheFields : Prop :=
  ∀ s : State, ∃ v : Word32,
    exec .rdStatus s = .next { s with reads := v :: s.reads } ∧
    v.getLsbD 0 = s.busy ∧ v.getLsbD 1 = s.dvalid ∧ v.getLsbD 2 = decide (s.fam = .f64) ∧ v.getLsbD 3 = false ∧
    v.extractLsb' 4 4 = s.err.code ∧ v.extractLsb' 8 24 = 0#24

/-- 60_exceptions.md R241: the error codes. -/
def Obligations.ErrorCodes : Prop :=
  ErrCode.none.code = 0x0#4 ∧ ErrCode.illegalCmd.code = 0x1#4 ∧ ErrCode.lenRange.code = 0x2#4 ∧
    ErrCode.busyWrite.code = 0x3#4 ∧ ErrCode.badAccess.code = 0x4#4

/-- 44_commands.md R207: WR LEN_LO. -/
def Obligations.WrLenLoStoresTheLowHalf : Prop :=
  ∀ (v : Word32) (s : State),
    (s.busy = false → exec (.wrLenLo v) s = .next { s with lenLo := v }) ∧
    (s.busy = true → exec (.wrLenLo v) s = .next { s with err := .busyWrite })

/-- 44_commands.md R214: WR LEN_HI. -/
def Obligations.WrLenHiStoresTheHighHalf : Prop :=
  ∀ (v : Word32) (s : State),
    (s.busy = false → exec (.wrLenHi v) s = .next { s with lenHi := v }) ∧
    (s.busy = true → exec (.wrLenHi v) s = .next { s with err := .busyWrite })

/-- 44_commands.md R210, R215, R216: RD CMD, RD LEN_LO and RD LEN_HI, whether or not BUSY = 1. -/
def Obligations.RegisterReadsReturnTheirValue : Prop :=
  ∀ s : State,
    exec .rdCmd s = .next { s with reads := 0x00000000#32 :: s.reads } ∧
    exec .rdLenLo s = .next { s with reads := s.lenLo :: s.reads } ∧
    exec .rdLenHi s = .next { s with reads := s.lenHi :: s.reads }

/-- 44_commands.md R208: the DIGEST words and their gating by DVALID and FAM. -/
def Obligations.RdDigestIsGated : Prop :=
  ∀ (s : State) (j : Fin 16), ∃ v : Word32,
    exec (.rdDigest j) s = .next { s with reads := v :: s.reads } ∧
    (s.dvalid = false → v = 0x00000000#32) ∧
    (s.dvalid = true → s.fam = .f32 → j.val < 8 → v = (s.engine.acc.word j.val).extractLsb' 0 32) ∧
    (s.dvalid = true → s.fam = .f32 → 8 ≤ j.val → v = 0x00000000#32) ∧
    (s.dvalid = true → s.fam = .f64 → j.val % 2 = 0 → v = (s.engine.acc.word (j.val / 2)).extractLsb' 32 32) ∧
    (s.dvalid = true → s.fam = .f64 → j.val % 2 = 1 → v = (s.engine.acc.word ((j.val - 1) / 2)).extractLsb' 0 32)

/-- 20_memory.md R53, 43_compression.md R180: a DIGEST word packs four digest bytes, the most significant first. -/
def Obligations.DigestWordPacksFourBytes : Prop :=
  ∀ (s : State) (j : Fin 16), s.dvalid = true → 4 * j.val < 8 * (descOf s.fam).wordBytes →
    let d := digestBytes (descOf s.fam) (s.engine.acc.map (ofStore s.fam.width))
    exec (.rdDigest j) s = .next { s with
      reads := packWord (d.getD (4 * j.val) 0#8) (d.getD (4 * j.val + 1) 0#8) (d.getD (4 * j.val + 2) 0#8)
        (d.getD (4 * j.val + 3) 0#8) :: s.reads }

/-- 44_commands.md R209: writes to STATUS and DIGEST[j] are dropped with BAD_ACCESS, whether or not BUSY = 1. -/
def Obligations.ReadOnlyWritesAreBadAccess : Prop :=
  ∀ (v : Word32) (s : State),
    exec (.wrStatus v) s = .next { s with err := .badAccess } ∧
    ∀ j, exec (.wrDigest j v) s = .next { s with err := .badAccess }

/-! ## Message memory -/

/-- 44_commands.md R211, 20_memory.md R52: WRM stores the four bytes big-endian and changes nothing else; a bad address comes
before BUSY. -/
def Obligations.WrmStoresFourBytes : Prop :=
  ∀ (a : Nat) (v : Word32) (s : State), Memory.wf s.mem = true →
    (a % 4 ≠ 0 ∨ s.msgBytes < a + 4 → exec (.wrm a v) s = .next { s with err := .badAccess }) ∧
    (a % 4 = 0 → a + 4 ≤ s.msgBytes → s.busy = true → exec (.wrm a v) s = .next { s with err := .busyWrite }) ∧
    (a % 4 = 0 → a + 4 ≤ s.msgBytes → s.busy = false →
      ∃ t, exec (.wrm a v) s = .next t ∧ t = { s with mem := t.mem } ∧
        t.mem.read a = v.extractLsb' 24 8 ∧ t.mem.read (a + 1) = v.extractLsb' 16 8 ∧
        t.mem.read (a + 2) = v.extractLsb' 8 8 ∧ t.mem.read (a + 3) = v.extractLsb' 0 8 ∧
        ∀ x, (x < a ∨ a + 4 ≤ x) → t.mem.read x = s.mem.read x)

/-- 44_commands.md R212, 20_memory.md R52: RDM returns the four bytes packed big-endian, whether or not BUSY = 1. -/
def Obligations.RdmReturnsFourBytes : Prop :=
  ∀ (a : Nat) (s : State),
    (a % 4 ≠ 0 ∨ s.msgBytes < a + 4 →
      exec (.rdm a) s = .next { s with err := .badAccess, reads := 0x00000000#32 :: s.reads }) ∧
    (a % 4 = 0 → a + 4 ≤ s.msgBytes →
      exec (.rdm a) s = .next { s with
        reads := (s.mem.read a ++ s.mem.read (a + 1) ++ s.mem.read (a + 2) ++ s.mem.read (a + 3))
          :: s.reads })

/-- 20_memory.md R61, 44_commands.md R211, R212: a word written is read back. -/
def Obligations.WrmThenRdmReadsBack : Prop :=
  ∀ (a : Nat) (v : Word32) (s t : State), Memory.wf s.mem = true → s.busy = false → a % 4 = 0 →
    a + 4 ≤ s.msgBytes → exec (.wrm a v) s = .next t →
    exec (.rdm a) t = .next { t with reads := v :: t.reads }

/-- 44_commands.md R213: every bad access, raw: misaligned or unmapped in REG, misaligned or out of range in MSG, whether or not
BUSY = 1; a write is dropped, a read returns 0. -/
def Obligations.BadAccessesAreHarmless : Prop :=
  ∀ (s : State) (off : BitVec 8) (a : Nat) (data : Word32),
    (off.toNat % 4 ≠ 0 ∨ (0x10 ≤ off.toNat ∧ off.toNat ≤ 0x3F) ∨ 0x80 ≤ off.toNat →
      exec (decode (.bus (tdOf .wr false off) a data)) s = .next { s with err := .badAccess } ∧
      exec (decode (.bus (tdOf .rd false off) a data)) s =
        .next { s with err := .badAccess, reads := 0x00000000#32 :: s.reads }) ∧
    (a % 4 ≠ 0 ∨ s.msgBytes < a + 4 →
      exec (decode (.bus (tdOf .wr true off) a data)) s = .next { s with err := .badAccess } ∧
      exec (decode (.bus (tdOf .rd true off) a data)) s =
        .next { s with err := .badAccess, reads := 0x00000000#32 :: s.reads })

/-- 44_commands.md R213: the bad REG access of either direction goes on, with ERR = BAD_ACCESS. -/
def Obligations.BadAccessGoesOn : Prop :=
  ∀ (s : State) (off : BitVec 8),
    exec (.badAccess .wr off) s = .next { s with err := .badAccess } ∧
    exec (.badAccess .rd off) s = .next { s with err := .badAccess, reads := 0x00000000#32 :: s.reads }

/-! ## Rules about every transaction -/

/-- 60_exceptions.md R240, R245: nothing faults and nothing is refused; every step of every state has a next state. -/
def Obligations.EveryStepGoesOn : Prop := ∀ s : State, ∃ t, step s = .next t

/-- 60_exceptions.md R242: an error is precise: a transaction that leaves a new code in ERR has no other effect, but that a read
returns its value. -/
def Obligations.ErrorsArePrecise : Prop :=
  ∀ (i : Instr) (s t : State), exec i s = .next t → t.err ≠ .none → t.err ≠ s.err →
    SameButErrAndReads s t ∧ (t.reads = s.reads ∨ t.reads = 0x00000000#32 :: s.reads)

/-- 60_exceptions.md R244: an accepted HASH, CLEAR and the reset event clear ERR; no other transaction does, and the completion
step keeps it. -/
def Obligations.OnlyHashAndClearClearErr : Prop :=
  ∀ s : State,
    (∀ (i : Instr) (t : State), exec i s = .next t → s.err ≠ .none → t.err = .none →
      s.busy = false ∧
        ((t = s.accepted .f32 ∧ (i = .hash256 ∨ i = .wrCmd 0x00000001#32)) ∨
          (t = s.accepted .f64 ∧ (i = .hash512 ∨ i = .wrCmd 0x00000011#32)) ∨
          (t = s.clearCommand ∧ (i = .clear ∨ i = .wrCmd 0x00000002#32)))) ∧
    (∀ F, (s.accepted F).err = .none) ∧ s.clearCommand.err = .none ∧ s.resetEvent.err = .none ∧ s.complete.err = s.err

/-- 70_reset_and_hazards.md R273, 60_exceptions.md R242: no transaction changes the HASH in progress, its message or its length:
while BUSY = 1 a transaction changes ERR and the values read, at most. -/
def Obligations.NothingDisturbsARunningHash : Prop :=
  ∀ (i : Instr) (s t : State), s.busy = true → exec i s = .next t → SameButErrAndReads s t

/-- 20_memory.md R68, R69: a byte of MSG keeps its value until a host write changes it: a step that changes MSG performs a WRM
while BUSY = 0, and no other step does. -/
def Obligations.OnlyWrmWritesMsg : Prop :=
  ∀ s t : State, step s = .next t → t.mem ≠ s.mem →
    s.busy = false ∧ ∃ w a v, s.nextMove.1 = .transact w ∧ decode w = .wrm a v ∧ t.mem = s.mem.writeWord a v

/-! ## The hash computation -/

/-- 40_bit_mixer.md R104: bit i of ROTR_w(x, n) is bit (i + n) mod w of x, for every width and amount. -/
def Obligations.RotrMovesBits : Prop :=
  ∀ (w : Nat) (x : BitVec w) (n i : Nat), i < w → (rotr x n).getLsbD i = x.getLsbD ((i + n) % w)

/-- 40_bit_mixer.md R105, R106: choose selects by e, majority votes, bit by bit. -/
def Obligations.ChooseAndMajorityBits : Prop :=
  ∀ (w : Nat) (x y z : BitVec w) (i : Nat), i < w →
    ((ch x y z).getLsbD i = if x.getLsbD i then y.getLsbD i else z.getLsbD i) ∧
    (maj x y z).getLsbD i =
      (x.getLsbD i && y.getLsbD i || x.getLsbD i && z.getLsbD i || y.getLsbD i && z.getLsbD i)

/-- 40_bit_mixer.md R107 to R114: the eight sigma functions of the two families. -/
def Obligations.SigmaFunctions : Prop :=
  (∀ x : BitVec 32,
    smallSigma desc32.s0 x = x.rotateRight 7 ^^^ x.rotateRight 18 ^^^ x >>> 3 ∧
    smallSigma desc32.s1 x = x.rotateRight 17 ^^^ x.rotateRight 19 ^^^ x >>> 10 ∧
    bigSigma desc32.u0 x = x.rotateRight 2 ^^^ x.rotateRight 13 ^^^ x.rotateRight 22 ∧
    bigSigma desc32.u1 x = x.rotateRight 6 ^^^ x.rotateRight 11 ^^^ x.rotateRight 25) ∧
  (∀ x : BitVec 64,
    smallSigma desc64.s0 x = x.rotateRight 1 ^^^ x.rotateRight 8 ^^^ x >>> 7 ∧
    smallSigma desc64.s1 x = x.rotateRight 19 ^^^ x.rotateRight 61 ^^^ x >>> 6 ∧
    bigSigma desc64.u0 x = x.rotateRight 28 ^^^ x.rotateRight 34 ^^^ x.rotateRight 39 ∧
    bigSigma desc64.u1 x = x.rotateRight 14 ^^^ x.rotateRight 18 ^^^ x.rotateRight 41)

/-- 40_bit_mixer.md R116: the laws of the bit mixer, for every width and operand. -/
def Obligations.BitMixerLaws : Prop :=
  ∀ (w : Nat) (x y z : BitVec w) (m n : Nat) (q : Amounts),
    rotr (x ^^^ y) n = rotr x n ^^^ rotr y n ∧
    shr (x ^^^ y) n = shr x n ^^^ shr y n ∧
    smallSigma q (x ^^^ y) = smallSigma q x ^^^ smallSigma q y ∧
    bigSigma q (x ^^^ y) = bigSigma q x ^^^ bigSigma q y ∧
    smallSigma q 0#w = 0#w ∧ bigSigma q 0#w = 0#w ∧
    rotr (rotr x m) n = rotr x (m + n) ∧
    ch x y z = (x &&& y) ||| (~~~x &&& z) ∧
    maj x y z = (x &&& y) ||| (x &&& z) ||| (y &&& z) ∧
    maj x y z = ch (x ^^^ y) z x ∧
    bigSigma q (BitVec.allOnes w) = BitVec.allOnes w

/-- 41_padder_segmenter.md R134: the closed form of the block count and the bounds of the padding. -/
def Obligations.BlockCountClosedForm : Prop :=
  ∀ (F : Family) (len : Nat),
    paddedLength (descOf F) len = len + 1 + zeroFill (descOf F) len + (descOf F).lenBytes ∧
    blockCount (descOf F) len = (len + (descOf F).lenBytes) / (descOf F).blockBytes + 1 ∧
    paddedLength (descOf F) len % (descOf F).blockBytes = 0 ∧
    1 ≤ blockCount (descOf F) len ∧
    len + (descOf F).lenBytes + 1 ≤ paddedLength (descOf F) len ∧
    paddedLength (descOf F) len ≤ len + (descOf F).blockBytes + (descOf F).lenBytes ∧
    blockCount (descOf F) len * (descOf F).blockBytes = paddedLength (descOf F) len

/-- 41_padder_segmenter.md R135: the four cases of the padded byte function, and that it gives the bytes of the source's append
loop, index by index. -/
def Obligations.PaddedBytesAreTheLoops : Prop :=
  ∀ (F : Family) (m : List Byte),
    (pad (descOf F) m).length = paddedLength (descOf F) m.length ∧
    ∀ p, p < paddedLength (descOf F) m.length →
      let b := paddedByte (descOf F) (fun i => m.getD i 0#8) m.length p
      (pad (descOf F) m)[p]? = some b ∧
      (p < m.length → m[p]? = some b) ∧
      (p = m.length → b = 0x80#8) ∧
      (m.length < p → p < paddedLength (descOf F) m.length - (descOf F).lenBytes → b = 0x00#8) ∧
      (paddedLength (descOf F) m.length - (descOf F).lenBytes ≤ p →
        (beBytes (descOf F).lenBytes (8 * m.length % 2 ^ (8 * (descOf F).lenBytes)))[
          p - (paddedLength (descOf F) m.length - (descOf F).lenBytes)]? = some b)

/-- 41_padder_segmenter.md R138: the padding invariant. -/
def Obligations.PaddingInvariant : Prop :=
  ∀ (F : Family) (m : List Byte),
    (pad (descOf F) m).length % (descOf F).blockBytes = 0 ∧
    (beWord (8 * (descOf F).lenBytes)
        (fun q => (pad (descOf F) m).getD ((pad (descOf F) m).length - (descOf F).lenBytes + q) 0#8) (descOf F).lenBytes).toNat
      = 8 * m.length % 2 ^ (8 * (descOf F).lenBytes)

/-- 42_message_schedule.md R150, R151: the words of the schedule of any block. -/
def Obligations.ScheduleWords : Prop :=
  ∀ (F : Family) (block : List Byte),
    let W := fun i => (schedule (descOf F) block).getD i 0
    (schedule (descOf F) block).length = (descOf F).rounds ∧
    (∀ j, j < 16 → W j = beWord F.width (fun i => block.getD (j * (descOf F).wordBytes + i) 0#8) (descOf F).wordBytes) ∧
    ∀ i, 16 ≤ i → i < (descOf F).rounds →
      W i = W (i - 16) + smallSigma (descOf F).s0 (W (i - 15)) + W (i - 7) + smallSigma (descOf F).s1 (W (i - 2))

/-- 20_memory.md R52: the host word at MSG address 64·k + 4·j is schedule word W[j] of block k under FAM 0, when all four of its
bytes lie below LEN; R55: under FAM 1, W[j] at B + 8j is two host words. -/
def Obligations.HostWordsAreScheduleWords : Prop :=
  ∀ (s : State) (len k j : Nat), j < 16 →
    (64 * k + 4 * j + 4 ≤ len →
      beWord 32 (fun i => paddedByte desc32 (Memory.read s.mem) len (64 * k + (4 * j + i))) 4 =
        s.mem.readWord (64 * k + 4 * j)) ∧
    (128 * k + 8 * j + 8 ≤ len →
      beWord 64 (fun i => paddedByte desc64 (Memory.read s.mem) len (128 * k + (8 * j + i))) 8 =
        s.mem.readWord (128 * k + 8 * j) ++ s.mem.readWord (128 * k + 8 * j + 4))

/-- 43_compression.md R175, R177: one round and the fold, word by word. -/
def Obligations.RoundAndFold : Prop :=
  ∀ (F : Family) (kt wt : BitVec F.width) (v h : Octet F.width),
    let t1 := v.h + bigSigma (descOf F).u1 v.e + ch v.e v.f v.g + kt + wt
    let t2 := bigSigma (descOf F).u0 v.a + maj v.a v.b v.c
    roundStep (descOf F) kt wt v = ⟨t1 + t2, v.a, v.b, v.c, v.d + t1, v.e, v.f, v.g⟩ ∧
    ∀ k, k < 8 → (foldInto h v).word k = h.word k + v.word k

/-- 43_compression.md R171, R173: the upper halves of the 64-bit constants are the 32-bit ones; 10_state.md R20: their number. -/
def Obligations.ConstantTablesAgree : Prop :=
  roundConstants32.length = 64 ∧ roundConstants64.length = 80 ∧
    (roundConstants64.take 64).map (fun x => x.extractLsb' 32 32) = roundConstants32 ∧
    initial64.map (fun x => x.extractLsb' 32 32) = initial32

/-- 43_compression.md R180: the digest is 32 or 64 bytes, whatever the message, and byte wb·k + q is byte q of H[k], the most
significant first. -/
def Obligations.DigestBytes : Prop :=
  ∀ (F : Family) (h : Octet F.width),
    (digestBytes (descOf F) h).length = 8 * (descOf F).wordBytes ∧
    ∀ k q, k < 8 → q < (descOf F).wordBytes →
      (digestBytes (descOf F) h)[(descOf F).wordBytes * k + q]? =
        some ((h.word k).extractLsb' (8 * ((descOf F).wordBytes - 1 - q)) 8)

/-- 43_compression.md R178, R182, R183: block threading: after the micro-steps of its first b blocks the reference sequence has
folded exactly those b blocks of the padded message into IV, in order, and stands at the next block, or at IDLE after the last
of the N blocks and not before. -/
def Obligations.SequenceThreadsBlocks : Prop :=
  ∀ (e : Engine) (msg : Nat → Byte) (b : Nat),
    let D := descOf e.famL
    let blocks := blocksOf D (pad D ((List.range e.lenL.toNat).map msg))
    b ≤ blockCount D e.lenL.toNat →
    let r := (e.begin D).run D msg (b * blockSteps D)
    r.acc = ((blocks.take b).foldl (compressBlock D) D.iv).map toStore ∧
      blocks.length = blockCount D e.lenL.toNat ∧ r.block = b ∧
      r.phase = if b = blockCount D e.lenL.toNat then .idle else .load

/-- 44_commands.md R203: HASH, completion. It is enabled only while BUSY = 1; the core's turn then puts SHA_F of the first LEN_L
bytes of MSG into the accumulators, sets DVALID, clears BUSY, goes to IDLE and keeps everything else that the host can see. Whose turn
it is is the model's data (assumption 6), and the other internal registers hold free values (assumption 4). -/
def Obligations.CompletionComputesSha : Prop :=
  ∀ s : State,
    (s.busy = false → s.nextMove.1 ≠ .complete) ∧
    ∀ ts, s.turns = .core :: ts → s.busy = true →
      s.nextMove.1 = .complete ∧ ∃ t, step s = .next t ∧
        t = { s with turns := ts, dvalid := true, busy := false, engine := t.engine, draws := t.draws } ∧
        t.engine.acc = (sha s.engine.famL (s.message s.engine.lenL.toNat)).map toStore ∧
        t.engine.phase = .idle

/-- 20_memory.md R62: a HASH accepted in s hashes LEN and MSG as they stand in s, whatever transactions the host performs before
the completion. -/
def Obligations.DigestIsOfTheAcceptedMessage : Prop :=
  ∀ (s t : State) (F : Family) (i : Instr), (i = .hash256 ∧ F = .f32 ∨ i = .hash512 ∧ F = .f64) → s.busy = false →
    s.len.toNat ≤ s.msgBytes → exec i s = .next t → ∀ ws : List HostWord,
      (t.performAll ws).busy = true ∧
      (t.performAll ws).complete.engine.acc = (sha F (s.message s.len.toNat)).map toStore ∧
      (t.performAll ws).complete.dvalid = true ∧ (t.performAll ws).complete.fam = F ∧
      (t.performAll ws).complete.mem = s.mem ∧ (t.performAll ws).complete.len = s.len

/-- 20_memory.md R63: once the digest is valid, every transaction but an accepted HASH and CLEAR leaves the DIGEST words as they
are. -/
def Obligations.DigestStaysReadable : Prop :=
  ∀ (s : State) (ws : List HostWord) (j : Fin 16), s.busy = false → s.dvalid = true →
    (∀ w ∈ ws, ∀ v, decode w ≠ .hash256 ∧ decode w ≠ .hash512 ∧ decode w ≠ .clear ∧
      (decode w = .wrCmd v → legalCommand v = false)) →
    exec (.rdDigest j) (s.performAll ws) =
      .next { s.performAll ws with reads := s.digestWord j :: (s.performAll ws).reads }

/-- 20_memory.md R62: bytes at MSG addresses from LEN_L on never affect the digest. -/
def Obligations.BytesBeyondLenDoNotMatter : Prop :=
  ∀ s s' : State, s'.engine.famL = s.engine.famL → s'.engine.lenL = s.engine.lenL →
    (∀ a, a < s.engine.lenL.toNat → s'.mem.read a = s.mem.read a) →
    s'.complete.engine.acc = s.complete.engine.acc

/-! ## Reset, runs, fairness -/

/-- 10_state.md R34: what reset leaves, for every launch (R282). -/
def Obligations.ResetLeaves : Prop :=
  ∀ (lastWord : Fin (2 ^ 62)) (mem : Memory) (program : List HostLine) (turns : List Turn),
    let s := State.launch lastWord mem program turns
    s.statusWord = 0x00000000#32 ∧ s.lenLo = 0x00000000#32 ∧ s.lenHi = 0x00000000#32 ∧
    s.busy = false ∧ s.dvalid = false ∧ s.fam = .f32 ∧ s.err = .none ∧ s.engine.phase = .idle ∧ s.mem = mem ∧
    (∀ j, exec (.rdDigest j) s = .next { s with reads := 0x00000000#32 :: s.reads }) ∧
    exec .rdCmd s = .next { s with reads := 0x00000000#32 :: s.reads }

/-- 70_reset_and_hazards.md R270, R278: the reset event at any time, BUSY = 1 or not: STATUS and LEN are cleared, MSG keeps its
bytes, no digest is visible and the completion step is enabled no more, whoever has the next turn. That
the turns go on after the event is the model's choice (assumptions 6, 9). -/
def Obligations.ResetAbandonsTheHash : Prop :=
  ∀ (s : State) (ts : List Turn), s.turns = .reset :: ts →
    ∃ t, step s = .next t ∧
      t.busy = false ∧ t.dvalid = false ∧ t.fam = .f32 ∧ t.err = .none ∧ t.statusWord = 0x00000000#32 ∧
      t.lenLo = 0x00000000#32 ∧ t.lenHi = 0x00000000#32 ∧ t.mem = s.mem ∧ t.lastWord = s.lastWord ∧
      t.engine.phase = .idle ∧ t.turns = ts ∧
      (∀ j, t.digestWord j = 0x00000000#32) ∧
      ∀ ts', (State.nextMove { t with turns := ts' }).1 ≠ .complete

/-- 10_state.md R34: every launch with a canonical memory inside MSG, State.reset among them, meets the invariant.
MSG_BYTES = 256 and the empty MSG of State.reset are the model's choice (assumptions 2, 3). -/
def Obligations.LaunchMeetsInvariant : Prop :=
  State.reset.Inv ∧
  ∀ (lastWord : Fin (2 ^ 62)) (mem : Memory) (program : List HostLine) (turns : List Turn),
    Memory.wf mem = true → Memory.below (4 * (lastWord.val + 1)) mem = true →
      (State.launch lastWord mem program turns).Inv

/-- 10_state.md R24, R27, 20_memory.md R50, R56: every step keeps the invariant: MSG canonical and inside its bounds, BUSY and
DVALID exclusive, the phase IDLE exactly while BUSY = 0, the latched length in range and equal to LEN, the latched family equal
to STATUS.FAM, a 32-bit digest in the low halves. -/
def Obligations.StepKeepsInvariant : Prop := ∀ s t : State, s.Inv → step s = .next t → t.Inv

/-- 70_reset_and_hazards.md R276: the completion of a HASH in progress, or a reset, comes after finitely many steps under every
schedule. The bound rests on the model's form of weak fairness (assumption 7). -/
def Obligations.EveryHashEnds : Prop :=
  ∀ s : State, s.busy = true →
    ∃ n, n ≤ s.turns.length + 1 ∧ (s.after n).busy = false

/-- 30_encoding.md R88: WAIT ends for every schedule, after a first STATUS read with bit 0 = 0. The bound rests on the model's
form of weak fairness (assumption 7). -/
def Obligations.WaitEnds : Prop :=
  ∀ (s : State) (rest : List HostLine), s.program = .wait :: rest →
    ∃ n v, n ≤ s.turns.length + 2 ∧ (s.after n).program = rest ∧ (s.after n).reads.head? = some v ∧ v.getLsbD 0 = false

/-- 30_encoding.md R88, 10_state.md R25: SETLEN n leaves LEN = n and everything else unchanged, no turn being left (assumption 7). -/
def Obligations.SetLenSetsLen : Prop :=
  ∀ (s : State) (n : Word64) (rest : List HostLine), s.program = (Pseudo.setLen n).expand ++ rest → s.turns = [] →
    s.busy = false →
    s.after 2 = { s with program := rest, lenLo := (s.after 2).lenLo, lenHi := (s.after 2).lenHi } ∧ (s.after 2).len = n

/-- 30_encoding.md R88, 20_memory.md R55, R58: LOADMSG puts a byte string into MSG, word by word, its last word filled with
0x00, and changes no other byte. Its words at A + 4j that are out of range, and all of them when A is misaligned, are
dropped with BAD_ACCESS. That this holds however large A is, A + 4j never wrapping, is the model's choice: MSG addresses have no
width (assumption 11). No turn is left (assumption 7). -/
def Obligations.LoadMsgStoresTheString : Prop :=
  ∀ (s : State) (a : Nat) (bytes : List Byte) (rest : List HostLine), Memory.wf s.mem = true →
    s.program = (Pseudo.loadMsg a bytes).expand ++ rest → s.turns = [] → s.busy = false →
    let n := (bytes.length + 3) / 4
    ∃ t, s.after n = t ∧ t = { s with program := rest, mem := t.mem, err := t.err } ∧
      (a % 4 = 0 →
        (∀ i, i < 4 * n → a + i < s.msgBytes → t.mem.read (a + i) = bytes.getD i 0x00#8) ∧
        (∀ x, (x < a ∨ a + 4 * n ≤ x ∨ s.msgBytes ≤ x) → t.mem.read x = s.mem.read x) ∧
        (n = 0 ∨ a + 4 * n ≤ s.msgBytes → t.err = s.err) ∧
        (0 < n → s.msgBytes < a + 4 * n → t.err = .badAccess)) ∧
      (a % 4 ≠ 0 → t.mem = s.mem ∧ (n = 0 → t.err = s.err) ∧ (0 < n → t.err = .badAccess))
end

