-- ==== Sys2Proof/Laws/Hash.lean ====
section
/-!
SUPPORT. The small laws of the hash function in the source's form: descriptors, the padding loop, the expansion loop, the
rounds one by one.
-/

namespace Sys2Proof.Machine

variable {w : Nat}

/-! ## Descriptors (R20) -/

/-- The relations between a descriptor's sizes that the rules use: 16·wb = bs (R150), the length field and the 0x80 byte fit in
a block, n ≥ 16, 8·wb = w. -/
structure Desc.Sized (D : Desc w) : Prop where
  lenFits : D.lenBytes + 1 ≤ D.blockBytes
  block16 : 16 * D.wordBytes = D.blockBytes
  rounds16 : 16 < D.rounds
  rounds80 : D.rounds ≤ 80
  wordBits : 8 * D.wordBytes = w
  narrow : w ≤ 64

theorem descOf_sized (F : Family) : (descOf F).Sized := by
  cases F <;> constructor <;> decide

theorem Desc.Sized.blockPos {D : Desc w} (h : D.Sized) : 0 < D.blockBytes := by have := h.lenFits; omega

/-! ## Octets -/

theorem Octet.ext_word {o p : Octet w} (h : ∀ k, k < 8 → o.word k = p.word k) : o = p := by
  rcases o with ⟨a, b, c, d, e, f, g, i⟩
  rcases p with ⟨a', b', c', d', e', f', g', i'⟩
  have h0 := h 0 (by omega)
  have h1 := h 1 (by omega)
  have h2 := h 2 (by omega)
  have h3 := h 3 (by omega)
  have h4 := h 4 (by omega)
  have h5 := h 5 (by omega)
  have h6 := h 6 (by omega)
  have h7 := h 7 (by omega)
  simp only [Octet.word] at h0 h1 h2 h3 h4 h5 h6 h7
  simp [h0, h1, h2, h3, h4, h5, h6, h7]

@[simp] theorem Octet.word_map {v : Nat} (f : BitVec v → BitVec w) (o : Octet v) (k : Nat) :
    (o.map f).word k = f (o.word k) := by
  unfold Octet.word Octet.map
  split <;> rfl

theorem Octet.map_map {u v : Nat} (f : BitVec v → BitVec w) (g : BitVec u → BitVec v) (o : Octet u) :
    (o.map g).map f = o.map (fun x => f (g x)) := rfl

/-! ## The padding loop (R132, R133) -/

/-- The zero count the loop reaches from a buffer of `n` bytes. -/
def zerosAfter (D : Desc w) (n : Nat) : Nat := (D.blockBytes - (n + D.lenBytes) % D.blockBytes) % D.blockBytes

theorem zeroFill_eq (D : Desc w) (len : Nat) : zeroFill D len = zerosAfter D (len + 1) := rfl

theorem zerosAfter_lt {D : Desc w} (h : 0 < D.blockBytes) (n : Nat) : zerosAfter D n < D.blockBytes := Nat.mod_lt _ h

/-- The zero count of a complete block is 0, of one that lacks bytes their number. -/
theorem zerosAfter_cases {D : Desc w} (h : 0 < D.blockBytes) (n : Nat) :
    ((n + D.lenBytes) % D.blockBytes = 0 ∧ zerosAfter D n = 0) ∨
      ((n + D.lenBytes) % D.blockBytes ≠ 0 ∧ zerosAfter D n = D.blockBytes - (n + D.lenBytes) % D.blockBytes) := by
  have hr := Nat.mod_lt (n + D.lenBytes) h
  unfold zerosAfter
  generalize (n + D.lenBytes) % D.blockBytes = r at hr ⊢
  by_cases h0 : r = 0
  · exact .inl ⟨h0, by rw [h0, Nat.sub_zero, Nat.mod_self]⟩
  · exact .inr ⟨h0, Nat.mod_eq_of_lt (by omega)⟩

/-- The zero count completes the block. -/
theorem zerosAfter_spec {D : Desc w} (h : 0 < D.blockBytes) (n : Nat) :
    (n + zerosAfter D n + D.lenBytes) % D.blockBytes = 0 := by
  have hr := Nat.mod_lt (n + D.lenBytes) h
  have hd := Nat.div_add_mod (n + D.lenBytes) D.blockBytes
  rcases zerosAfter_cases h n with ⟨h0, hz⟩ | ⟨h0, hz⟩ <;> rw [hz]
  · exact h0
  · have : n + (D.blockBytes - (n + D.lenBytes) % D.blockBytes) + D.lenBytes
        = D.blockBytes * ((n + D.lenBytes) / D.blockBytes + 1) := by
      rw [Nat.mul_add, Nat.mul_one]
      omega
    rw [this, Nat.mul_mod_right]

/-- One turn of the loop lowers the count by one, and none is left when the block is complete. -/
theorem zerosAfter_succ {D : Desc w} (h : 0 < D.blockBytes) (n : Nat) :
    ((n + D.lenBytes) % D.blockBytes = 0 ∧ zerosAfter D n = 0) ∨
      ((n + D.lenBytes) % D.blockBytes ≠ 0 ∧ zerosAfter D n = zerosAfter D (n + 1) + 1) := by
  have hr := Nat.mod_lt (n + D.lenBytes) h
  have e : (n + 1 + D.lenBytes) % D.blockBytes = ((n + D.lenBytes) % D.blockBytes + 1) % D.blockBytes := by
    rw [Nat.mod_add_mod]
    congr 1
    omega
  rcases zerosAfter_cases h n with hz | ⟨h0, hz⟩
  · exact .inl hz
  · refine .inr ⟨h0, ?_⟩
    have hn := zerosAfter_cases h (n + 1)
    rw [e] at hn
    rw [hz]
    generalize (n + D.lenBytes) % D.blockBytes = r at *
    rcases hn with ⟨h1, hz'⟩ | ⟨h1, hz'⟩ <;> rw [hz']
    · have : r + 1 = D.blockBytes := by
        by_contra hne
        rw [Nat.mod_eq_of_lt (by omega)] at h1
        omega
      omega
    · have hlt : r + 1 < D.blockBytes := by
        by_contra hne
        rw [show r + 1 = D.blockBytes by omega, Nat.mod_self] at h1
        exact h1 rfl
      rw [Nat.mod_eq_of_lt hlt]
      omega

/-- The loop appends exactly the zero count (R133). -/
theorem appendZeros_eq {D : Desc w} (h : 0 < D.blockBytes) (k : Nat) (p : List Byte) (hk : zerosAfter D p.length ≤ k) :
    appendZeros D k p = p ++ List.replicate (zerosAfter D p.length) 0x00#8 := by
  induction k generalizing p with
  | zero => rw [Nat.le_zero.1 hk]; simp [appendZeros]
  | succ k ih =>
    have hc : (p.length * 8 + 8 * D.lenBytes) % (8 * D.blockBytes) = 8 * ((p.length + D.lenBytes) % D.blockBytes) := by
      rw [show p.length * 8 + 8 * D.lenBytes = 8 * (p.length + D.lenBytes) by ring, Nat.mul_mod_mul_left]
    unfold appendZeros
    rcases zerosAfter_succ h p.length with ⟨h0, hz⟩ | ⟨h0, hz⟩
    · rw [if_neg (by omega), hz]
      simp
    · have hl : (p ++ [0x00#8]).length = p.length + 1 := by simp
      rw [if_pos (by omega), ih _ (by rw [hl]; omega), hl, hz, List.replicate_succ]
      simp

/-- pad_F(m) taken apart: message, 0x80, zeros, length field (R12, R132). -/
theorem pad_eq {D : Desc w} (h : 0 < D.blockBytes) (m : List Byte) :
    pad D m = m ++ 0x80#8 :: (List.replicate (zeroFill D m.length) 0x00#8 ++ beBytes D.lenBytes (bitLength D m.length)) := by
  have hl : (m ++ [0x80#8]).length = m.length + 1 := by simp
  have := zerosAfter_lt h (m.length + 1)
  rw [pad, appendZeros_eq h _ _ (by rw [hl]; omega), hl, ← zeroFill_eq]
  simp

@[simp] theorem length_beBytes (k v : Nat) : (beBytes k v).length = k := by simp [beBytes]

theorem length_pad {D : Desc w} (h : 0 < D.blockBytes) (m : List Byte) : (pad D m).length = paddedLength D m.length := by
  rw [pad_eq h, paddedLength]
  simp
  omega

/-- P is a multiple of bs (R134). -/
theorem paddedLength_mod {D : Desc w} (h : 0 < D.blockBytes) (len : Nat) : paddedLength D len % D.blockBytes = 0 :=
  zerosAfter_spec h (len + 1)

theorem blockCount_mul {D : Desc w} (h : 0 < D.blockBytes) (len : Nat) :
    blockCount D len * D.blockBytes = paddedLength D len :=
  Nat.div_mul_cancel (Nat.dvd_of_mod_eq_zero (paddedLength_mod h len))

theorem blockCount_pos {D : Desc w} (h : D.Sized) (len : Nat) : 0 < blockCount D len := by
  have hm := blockCount_mul h.blockPos len
  rcases Nat.eq_zero_or_pos (blockCount D len) with h0 | h0
  · rw [h0, Nat.zero_mul] at hm
    unfold paddedLength at hm
    omega
  · exact h0

/-- The bytes of the block k of a byte string that covers it. -/
theorem blockOf_getD {D : Desc w} (p : List Byte) (k i : Nat) (hi : i < D.blockBytes) :
    (blockOf D p k).getD i 0#8 = p.getD (k * D.blockBytes + i) 0#8 := by
  simp only [blockOf, List.getD_eq_getElem?_getD, List.getElem?_take, List.getElem?_drop, if_pos hi]

/-! ## The expansion loop (R150, R151) -/

theorem beWord_congr {f g : Nat → Byte} {n : Nat} (h : ∀ i, i < n → f i = g i) : beWord w f n = beWord w g n := by
  induction n with
  | zero => rfl
  | succ n ih => rw [beWord, beWord, ih fun i hi => h i (by omega), h n (by omega)]

@[simp] theorem length_decodeWords (D : Desc w) (block : List Byte) : (decodeWords D block).length = 16 := by
  simp [decodeWords]

/-- The word the loop appends to `ws`. -/
def appendedWord (D : Desc w) (ws : List (BitVec w)) : BitVec w :=
  nextWord D (ws.getD (ws.length - 16) 0#w) (ws.getD (ws.length - 15) 0#w) (ws.getD (ws.length - 7) 0#w)
    (ws.getD (ws.length - 2) 0#w)

theorem expandWords_succ (D : Desc w) (n : Nat) (ws : List (BitVec w)) :
    expandWords D (n + 1) ws = expandWords D n (ws ++ [appendedWord D ws]) := rfl

theorem length_expandWords (D : Desc w) (n : Nat) (ws : List (BitVec w)) :
    (expandWords D n ws).length = ws.length + n := by
  induction n generalizing ws with
  | zero => rfl
  | succ n ih => rw [expandWords_succ, ih]; simp; omega

/-- The loop keeps the words it starts from. -/
theorem expandWords_old (D : Desc w) (n : Nat) (ws : List (BitVec w)) {i : Nat} (hi : i < ws.length) :
    (expandWords D n ws).getD i 0#w = ws.getD i 0#w := by
  induction n generalizing ws with
  | zero => rfl
  | succ n ih =>
    rw [expandWords_succ, ih _ (by simp; omega)]
    simp only [List.getD_eq_getElem?_getD, List.getElem?_append_left hi]

/-- Each word the loop adds obeys the recurrence of R151. -/
theorem expandWords_new (D : Desc w) (n : Nat) (ws : List (BitVec w)) (h16 : 16 ≤ ws.length) {i : Nat}
    (hi : ws.length ≤ i) (hn : i < ws.length + n) :
    (expandWords D n ws).getD i 0#w =
      nextWord D ((expandWords D n ws).getD (i - 16) 0#w) ((expandWords D n ws).getD (i - 15) 0#w)
        ((expandWords D n ws).getD (i - 7) 0#w) ((expandWords D n ws).getD (i - 2) 0#w) := by
  induction n generalizing ws with
  | zero => omega
  | succ n ih =>
    have hl : (ws ++ [appendedWord D ws]).length = ws.length + 1 := by simp
    rw [expandWords_succ]
    rcases Nat.eq_or_lt_of_le hi with h | h
    · subst h
      have old : ∀ j, j < ws.length →
          (expandWords D n (ws ++ [appendedWord D ws])).getD j 0#w = ws.getD j 0#w := fun j hj => by
        rw [expandWords_old _ _ _ (by rw [hl]; omega)]
        simp only [List.getD_eq_getElem?_getD, List.getElem?_append_left hj]
      rw [old (ws.length - 16) (by omega), old (ws.length - 15) (by omega), old (ws.length - 7) (by omega),
        old (ws.length - 2) (by omega), expandWords_old _ _ _ (by rw [hl]; omega)]
      simp only [List.getD_eq_getElem?_getD, List.getElem?_concat_length, Option.getD_some]
      rfl
    · exact ih _ (by rw [hl]; omega) (by rw [hl]; omega) (by rw [hl]; omega)

/-! ## The rounds (R176) -/

/-- The last round applied after the others. -/
theorem roundsFrom_succ (D : Desc w) (ws : List (BitVec w)) (n i : Nat) (v : Octet w) :
    roundsFrom D ws (n + 1) i v =
      roundStep D (D.k.getD (i + n) 0#w) (ws.getD (i + n) 0#w) (roundsFrom D ws n i v) := by
  induction n generalizing i v with
  | zero => rfl
  | succ n ih =>
    rw [roundsFrom, ih, show i + 1 + n = i + (n + 1) by omega]
    rfl

/-! ## Storage (R27) -/

/-- What storage gives back is what was put there. -/
@[simp] theorem ofStore_toStore (h : w ≤ 64) (x : BitVec w) : ofStore w (toStore x) = x := by
  apply BitVec.eq_of_toNat_eq
  have := x.isLt
  simp only [ofStore, toStore, BitVec.toNat_setWidth]
  rw [Nat.mod_eq_of_lt (a := x.toNat) (lt_of_lt_of_le x.isLt (Nat.pow_le_pow_right (by omega) h)), Nat.mod_eq_of_lt x.isLt]

theorem Octet.map_ofStore_toStore (h : w ≤ 64) (o : Octet w) : (o.map toStore).map (ofStore w) = o := by
  rw [Octet.map_map]
  exact Octet.ext_word fun k _ => by rw [Octet.word_map, ofStore_toStore h]

end Sys2Proof.Machine
end

