-- ==== Sys2Proof/Laws/Memory.lean ====
section
/-!
SUPPORT. The laws of MSG as a list of cells: a read after a write, the canonical form, and equality of canonical memories.
-/

namespace Sys2Proof.Machine

@[simp] theorem Memory.read_nil (a : Nat) : Memory.read [] a = Memory.unlisted := rfl

theorem Memory.read_cons (c : Host.Cell) (m : Memory) (a : Nat) :
    Memory.read (c :: m) a = if c.1 = a then c.2 else Memory.read m a := rfl

/-- The canonical form of a non-empty memory, taken apart. -/
theorem Memory.wf_cons (c : Host.Cell) (m : Memory) :
    Memory.wf (c :: m) = true ↔ c.2 ≠ Memory.unlisted ∧ (∀ d ∈ m, c.1 < d.1) ∧ Memory.wf m = true := by
  simp only [Memory.wf, Bool.and_eq_true, bne_iff_ne, ne_eq, List.all_eq_true, decide_eq_true_eq, and_assoc]

/-- An address that no cell lists reads as the unlisted byte. -/
theorem Memory.read_of_not_listed {m : Memory} {a : Nat} (h : ∀ d ∈ m, d.1 ≠ a) : m.read a = Memory.unlisted := by
  induction m with
  | nil => rfl
  | cons c m ih =>
    rw [Memory.read_cons, if_neg (h c List.mem_cons_self)]
    exact ih fun d hd => h d (List.mem_cons_of_mem _ hd)

/-- A write leaves every other byte alone. -/
theorem Memory.read_write_other (m : Memory) {a x : Nat} (b : Byte) (h : a ≠ x) : (m.write a b).read x = m.read x := by
  induction m with
  | nil => by_cases hb : b = Memory.unlisted <;> simp [Memory.write, hb, Memory.read_cons, h]
  | cons c m ih =>
    unfold Memory.write
    split_ifs <;> simp_all [Memory.read_cons]

/-- A read after a write to the same address gives the byte written. -/
theorem Memory.read_write_same {m : Memory} (hm : m.wf = true) (a : Nat) (b : Byte) : (m.write a b).read a = b := by
  induction m with
  | nil => by_cases hb : b = Memory.unlisted <;> simp [Memory.write, hb, Memory.read_cons]
  | cons c m ih =>
    obtain ⟨-, hlt, hwf⟩ := (Memory.wf_cons c m).1 hm
    have unl : ∀ k, k ≤ c.1 → Memory.read m k = Memory.unlisted := fun k hk =>
      Memory.read_of_not_listed fun d hd => by have := hlt d hd; omega
    unfold Memory.write
    split_ifs with h1 h2 h3 h4
    · rw [Memory.read_cons, if_neg (by omega), unl a (by omega), h2]
    · rw [Memory.read_cons, if_pos rfl]
    · rw [← h3, unl c.1 (le_refl _), h4]
    · rw [Memory.read_cons, if_pos rfl]
    · rw [Memory.read_cons, if_neg h3, ih hwf]

/-- Every cell of a written memory is the written one or an old one. -/
theorem Memory.mem_write {m : Memory} {a : Nat} {b : Byte} {d : Host.Cell} (h : d ∈ m.write a b) : d.1 = a ∨ d ∈ m := by
  induction m with
  | nil => by_cases hb : b = Memory.unlisted <;> simp_all [Memory.write]
  | cons c m ih =>
    unfold Memory.write at h
    split_ifs at h <;> simp only [List.mem_cons] at h ⊢
    · exact .inr h
    · rcases h with rfl | h
      · exact .inl rfl
      · exact .inr h
    · exact .inr (.inr h)
    · rcases h with rfl | h
      · exact .inl rfl
      · exact .inr (.inr h)
    · rcases h with rfl | h
      · exact .inr (.inl rfl)
      · exact (ih h).imp id .inr

/-- A write keeps the canonical form. -/
theorem Memory.wf_write {m : Memory} (hm : m.wf = true) (a : Nat) (b : Byte) : (m.write a b).wf = true := by
  induction m with
  | nil => by_cases hb : b = Memory.unlisted <;> simp [Memory.write, hb, Memory.wf]
  | cons c m ih =>
    obtain ⟨hne, hlt, hwf⟩ := (Memory.wf_cons c m).1 hm
    unfold Memory.write
    split_ifs with h1 h2 h3 h4
    · exact hm
    · refine (Memory.wf_cons _ _).2 ⟨h2, fun d hd => ?_, hm⟩
      rcases List.mem_cons.1 hd with rfl | hd
      · exact h1
      · exact lt_trans h1 (hlt d hd)
    · exact hwf
    · exact (Memory.wf_cons _ _).2 ⟨h4, fun d hd => h3 ▸ hlt d hd, hwf⟩
    · refine (Memory.wf_cons _ _).2 ⟨hne, fun d hd => ?_, ih hwf⟩
      rcases Memory.mem_write hd with h | h
      · omega
      · exact hlt d h

theorem Memory.below_iff {n : Nat} {m : Memory} : m.below n = true ↔ ∀ d ∈ m, d.1 < n := by
  simp [Memory.below, List.all_eq_true]

/-- A write below `n` keeps every listed address below `n`. -/
theorem Memory.below_write {n : Nat} {m : Memory} (hm : m.below n = true) {a : Nat} (b : Byte) (ha : a < n) :
    (m.write a b).below n = true :=
  Memory.below_iff.2 fun d hd => (Memory.mem_write hd).elim (fun h => h ▸ ha) (Memory.below_iff.1 hm d)

/-- Canonical memories that read alike are equal. -/
theorem Memory.ext_of_read {m m' : Memory} (hm : m.wf = true) (hm' : m'.wf = true) (h : ∀ a, m.read a = m'.read a) :
    m = m' := by
  induction m generalizing m' with
  | nil =>
    cases m' with
    | nil => rfl
    | cons c' m' =>
      have hc := (Memory.wf_cons c' m').1 hm'
      have := h c'.1
      rw [Memory.read_cons, if_pos rfl] at this
      exact absurd this.symm hc.1
  | cons c m ih =>
    obtain ⟨hne, hlt, hwf⟩ := (Memory.wf_cons c m).1 hm
    cases m' with
    | nil =>
      have := h c.1
      rw [Memory.read_cons, if_pos rfl] at this
      exact absurd this hne
    | cons c' m' =>
      obtain ⟨hne', hlt', hwf'⟩ := (Memory.wf_cons c' m').1 hm'
      have unl : ∀ k, k ≤ c.1 → Memory.read m k = Memory.unlisted := fun k hk =>
        Memory.read_of_not_listed fun d hd => by have := hlt d hd; omega
      have unl' : ∀ k, k ≤ c'.1 → Memory.read m' k = Memory.unlisted := fun k hk =>
        Memory.read_of_not_listed fun d hd => by have := hlt' d hd; omega
      have hkey : c.1 = c'.1 := by
        rcases lt_trichotomy c.1 c'.1 with hk | hk | hk
        · have := h c.1
          rw [Memory.read_cons, if_pos rfl, Memory.read_cons, if_neg (by omega), unl' _ (by omega)] at this
          exact absurd this hne
        · exact hk
        · have := h c'.1
          rw [Memory.read_cons, if_neg (by omega), Memory.read_cons, if_pos rfl, unl _ (by omega)] at this
          exact absurd this.symm hne'
      have hval : c.2 = c'.2 := by
        have := h c.1
        rwa [Memory.read_cons, if_pos rfl, Memory.read_cons, if_pos hkey.symm] at this
      rw [Prod.ext hkey hval]
      congr 1
      refine ih hwf hwf' fun a => ?_
      by_cases ha : a = c.1
      · rw [unl a (by omega), unl' a (by omega)]
      · have := h a
        rwa [Memory.read_cons, if_neg (by omega), Memory.read_cons, if_neg (by omega)] at this

/-! ## Words -/

/-- A word write keeps the canonical form. -/
theorem Memory.wf_writeWord {m : Memory} (hm : m.wf = true) (a : Nat) (v : Word32) : (m.writeWord a v).wf = true :=
  Memory.wf_write (Memory.wf_write (Memory.wf_write (Memory.wf_write hm _ _) _ _) _ _) _ _

/-- A word write below `n` keeps every listed address below `n`. -/
theorem Memory.below_writeWord {n : Nat} {m : Memory} (hm : m.below n = true) {a : Nat} (v : Word32) (ha : a + 4 ≤ n) :
    (m.writeWord a v).below n = true :=
  Memory.below_write (Memory.below_write (Memory.below_write (Memory.below_write hm _ (by omega)) _ (by omega)) _ (by omega))
    _ (by omega)

/-- A word write leaves every byte outside its four alone. -/
theorem Memory.read_writeWord_other (m : Memory) {a x : Nat} (v : Word32) (h : x < a ∨ a + 4 ≤ x) :
    (m.writeWord a v).read x = m.read x := by
  unfold Memory.writeWord
  repeat rw [Memory.read_write_other _ _ (by omega)]

/-- A word write stores byte k of the word, most significant first, at a + k (R52). -/
theorem Memory.read_writeWord_byte {m : Memory} (hm : m.wf = true) (a : Nat) (v : Word32) {k : Nat} (hk : k < 4) :
    (m.writeWord a v).read (a + k) = wordByte v k := by
  have h1 := Memory.wf_write hm a (wordByte v 0)
  have h2 := Memory.wf_write h1 (a + 1) (wordByte v 1)
  have h3 := Memory.wf_write h2 (a + 2) (wordByte v 2)
  unfold Memory.writeWord
  interval_cases k
  · rw [Memory.read_write_other _ _ (by omega), Memory.read_write_other _ _ (by omega),
      Memory.read_write_other _ _ (by omega)]
    exact Memory.read_write_same hm _ _
  · rw [Memory.read_write_other _ _ (by omega), Memory.read_write_other _ _ (by omega)]
    exact Memory.read_write_same h1 _ _
  · rw [Memory.read_write_other _ _ (by omega)]
    exact Memory.read_write_same h2 _ _
  · exact Memory.read_write_same h3 _ _

/-- The four bytes of a word, packed, are the word (R52). -/
theorem packWord_wordByte (v : Word32) : packWord (wordByte v 0) (wordByte v 1) (wordByte v 2) (wordByte v 3) = v := by
  apply BitVec.eq_of_getLsbD_eq
  intro i hi
  simp only [packWord, wordByte, BitVec.getLsbD_append, BitVec.getLsbD_extractLsb']
  by_cases h0 : i < 8
  · simp [h0]
  by_cases h1 : i < 16
  · simp [h0, show i - 8 < 8 by omega, show 8 + (i - 8) = i by omega]
  by_cases h2 : i < 24
  · simp [h0, show ¬ i - 8 < 8 by omega, show i - 8 - 8 < 8 by omega, show 16 + (i - 8 - 8) = i by omega]
  · simp [h0, show ¬ i - 8 < 8 by omega, show ¬ i - 8 - 8 < 8 by omega, show i - 8 - 8 - 8 < 8 by omega,
      show 24 + (i - 8 - 8 - 8) = i by omega]

/-- The bytes of a packed word are those it was packed from (R52). -/
theorem wordByte_packWord (b0 b1 b2 b3 : Byte) :
    wordByte (packWord b0 b1 b2 b3) 0 = b0 ∧ wordByte (packWord b0 b1 b2 b3) 1 = b1 ∧
      wordByte (packWord b0 b1 b2 b3) 2 = b2 ∧ wordByte (packWord b0 b1 b2 b3) 3 = b3 := by
  refine ⟨?_, ?_, ?_, ?_⟩ <;> apply BitVec.eq_of_getLsbD_eq <;> intro i hi <;>
    simp only [packWord, wordByte, BitVec.getLsbD_append, BitVec.getLsbD_extractLsb'] <;> interval_cases i <;> simp

/-- A word read after a word write to the same address gives the word written. -/
theorem Memory.readWord_writeWord {m : Memory} (hm : m.wf = true) (a : Nat) (v : Word32) :
    (m.writeWord a v).readWord a = v := by
  have h0 : (m.writeWord a v).read a = wordByte v 0 := Memory.read_writeWord_byte hm a v (k := 0) (by omega)
  unfold Memory.readWord
  rw [h0, Memory.read_writeWord_byte hm a v (by omega), Memory.read_writeWord_byte hm a v (by omega),
    Memory.read_writeWord_byte hm a v (by omega), packWord_wordByte]

end Sys2Proof.Machine
end

