-- ==== Sys2Proof/Laws/State.lean ====
section
/-!
SUPPORT. One lemma per field per update of the state, so that no later proof unfolds a record update.
-/

namespace Sys2Proof.Machine

/-! ## raiseError -/

@[simp] theorem State.raiseError_lastWord (s : State) (c : ErrCode) : (s.raiseError c).lastWord = s.lastWord := rfl
@[simp] theorem State.raiseError_busy (s : State) (c : ErrCode) : (s.raiseError c).busy = s.busy := rfl
@[simp] theorem State.raiseError_dvalid (s : State) (c : ErrCode) : (s.raiseError c).dvalid = s.dvalid := rfl
@[simp] theorem State.raiseError_fam (s : State) (c : ErrCode) : (s.raiseError c).fam = s.fam := rfl
@[simp] theorem State.raiseError_err (s : State) (c : ErrCode) : (s.raiseError c).err = c := rfl
@[simp] theorem State.raiseError_lenLo (s : State) (c : ErrCode) : (s.raiseError c).lenLo = s.lenLo := rfl
@[simp] theorem State.raiseError_lenHi (s : State) (c : ErrCode) : (s.raiseError c).lenHi = s.lenHi := rfl
@[simp] theorem State.raiseError_mem (s : State) (c : ErrCode) : (s.raiseError c).mem = s.mem := rfl
@[simp] theorem State.raiseError_engine (s : State) (c : ErrCode) : (s.raiseError c).engine = s.engine := rfl
@[simp] theorem State.raiseError_program (s : State) (c : ErrCode) : (s.raiseError c).program = s.program := rfl
@[simp] theorem State.raiseError_turns (s : State) (c : ErrCode) : (s.raiseError c).turns = s.turns := rfl
@[simp] theorem State.raiseError_reads (s : State) (c : ErrCode) : (s.raiseError c).reads = s.reads := rfl
@[simp] theorem State.raiseError_draws (s : State) (c : ErrCode) : (s.raiseError c).draws = s.draws := rfl

/-! ## returnRead -/

@[simp] theorem State.returnRead_lastWord (s : State) (v : Word32) : (s.returnRead v).lastWord = s.lastWord := rfl
@[simp] theorem State.returnRead_busy (s : State) (v : Word32) : (s.returnRead v).busy = s.busy := rfl
@[simp] theorem State.returnRead_dvalid (s : State) (v : Word32) : (s.returnRead v).dvalid = s.dvalid := rfl
@[simp] theorem State.returnRead_fam (s : State) (v : Word32) : (s.returnRead v).fam = s.fam := rfl
@[simp] theorem State.returnRead_err (s : State) (v : Word32) : (s.returnRead v).err = s.err := rfl
@[simp] theorem State.returnRead_lenLo (s : State) (v : Word32) : (s.returnRead v).lenLo = s.lenLo := rfl
@[simp] theorem State.returnRead_lenHi (s : State) (v : Word32) : (s.returnRead v).lenHi = s.lenHi := rfl
@[simp] theorem State.returnRead_mem (s : State) (v : Word32) : (s.returnRead v).mem = s.mem := rfl
@[simp] theorem State.returnRead_engine (s : State) (v : Word32) : (s.returnRead v).engine = s.engine := rfl
@[simp] theorem State.returnRead_program (s : State) (v : Word32) : (s.returnRead v).program = s.program := rfl
@[simp] theorem State.returnRead_turns (s : State) (v : Word32) : (s.returnRead v).turns = s.turns := rfl
@[simp] theorem State.returnRead_reads (s : State) (v : Word32) : (s.returnRead v).reads = v :: s.reads := rfl
@[simp] theorem State.returnRead_draws (s : State) (v : Word32) : (s.returnRead v).draws = s.draws := rfl

/-! ## badAccess, a write -/

@[simp] theorem State.badAccess_wr_lastWord (s : State) : (s.badAccess .wr).lastWord = s.lastWord := rfl
@[simp] theorem State.badAccess_wr_busy (s : State) : (s.badAccess .wr).busy = s.busy := rfl
@[simp] theorem State.badAccess_wr_dvalid (s : State) : (s.badAccess .wr).dvalid = s.dvalid := rfl
@[simp] theorem State.badAccess_wr_fam (s : State) : (s.badAccess .wr).fam = s.fam := rfl
@[simp] theorem State.badAccess_wr_err (s : State) : (s.badAccess .wr).err = .badAccess := rfl
@[simp] theorem State.badAccess_wr_lenLo (s : State) : (s.badAccess .wr).lenLo = s.lenLo := rfl
@[simp] theorem State.badAccess_wr_lenHi (s : State) : (s.badAccess .wr).lenHi = s.lenHi := rfl
@[simp] theorem State.badAccess_wr_mem (s : State) : (s.badAccess .wr).mem = s.mem := rfl
@[simp] theorem State.badAccess_wr_engine (s : State) : (s.badAccess .wr).engine = s.engine := rfl
@[simp] theorem State.badAccess_wr_program (s : State) : (s.badAccess .wr).program = s.program := rfl
@[simp] theorem State.badAccess_wr_turns (s : State) : (s.badAccess .wr).turns = s.turns := rfl
@[simp] theorem State.badAccess_wr_reads (s : State) : (s.badAccess .wr).reads = s.reads := rfl
@[simp] theorem State.badAccess_wr_draws (s : State) : (s.badAccess .wr).draws = s.draws := rfl

/-! ## badAccess, a read -/

@[simp] theorem State.badAccess_rd_lastWord (s : State) : (s.badAccess .rd).lastWord = s.lastWord := rfl
@[simp] theorem State.badAccess_rd_busy (s : State) : (s.badAccess .rd).busy = s.busy := rfl
@[simp] theorem State.badAccess_rd_dvalid (s : State) : (s.badAccess .rd).dvalid = s.dvalid := rfl
@[simp] theorem State.badAccess_rd_fam (s : State) : (s.badAccess .rd).fam = s.fam := rfl
@[simp] theorem State.badAccess_rd_err (s : State) : (s.badAccess .rd).err = .badAccess := rfl
@[simp] theorem State.badAccess_rd_lenLo (s : State) : (s.badAccess .rd).lenLo = s.lenLo := rfl
@[simp] theorem State.badAccess_rd_lenHi (s : State) : (s.badAccess .rd).lenHi = s.lenHi := rfl
@[simp] theorem State.badAccess_rd_mem (s : State) : (s.badAccess .rd).mem = s.mem := rfl
@[simp] theorem State.badAccess_rd_engine (s : State) : (s.badAccess .rd).engine = s.engine := rfl
@[simp] theorem State.badAccess_rd_program (s : State) : (s.badAccess .rd).program = s.program := rfl
@[simp] theorem State.badAccess_rd_turns (s : State) : (s.badAccess .rd).turns = s.turns := rfl
@[simp] theorem State.badAccess_rd_reads (s : State) : (s.badAccess .rd).reads = 0x00000000#32 :: s.reads := rfl
@[simp] theorem State.badAccess_rd_draws (s : State) : (s.badAccess .rd).draws = s.draws := rfl

/-! ## clearCommand -/

@[simp] theorem State.clearCommand_lastWord (s : State) : (s.clearCommand).lastWord = s.lastWord := rfl
@[simp] theorem State.clearCommand_busy (s : State) : (s.clearCommand).busy = s.busy := rfl
@[simp] theorem State.clearCommand_dvalid (s : State) : (s.clearCommand).dvalid = false := rfl
@[simp] theorem State.clearCommand_fam (s : State) : (s.clearCommand).fam = .f32 := rfl
@[simp] theorem State.clearCommand_err (s : State) : (s.clearCommand).err = .none := rfl
@[simp] theorem State.clearCommand_lenLo (s : State) : (s.clearCommand).lenLo = s.lenLo := rfl
@[simp] theorem State.clearCommand_lenHi (s : State) : (s.clearCommand).lenHi = s.lenHi := rfl
@[simp] theorem State.clearCommand_mem (s : State) : (s.clearCommand).mem = s.mem := rfl
@[simp] theorem State.clearCommand_engine (s : State) : (s.clearCommand).engine = { s.engine with acc := Octet.zero 64 } := rfl
@[simp] theorem State.clearCommand_program (s : State) : (s.clearCommand).program = s.program := rfl
@[simp] theorem State.clearCommand_turns (s : State) : (s.clearCommand).turns = s.turns := rfl
@[simp] theorem State.clearCommand_reads (s : State) : (s.clearCommand).reads = s.reads := rfl
@[simp] theorem State.clearCommand_draws (s : State) : (s.clearCommand).draws = s.draws := rfl

/-! ## accepted -/

@[simp] theorem State.accepted_lastWord (s : State) (F : Family) : (s.accepted F).lastWord = s.lastWord := rfl
@[simp] theorem State.accepted_busy (s : State) (F : Family) : (s.accepted F).busy = true := rfl
@[simp] theorem State.accepted_dvalid (s : State) (F : Family) : (s.accepted F).dvalid = false := rfl
@[simp] theorem State.accepted_fam (s : State) (F : Family) : (s.accepted F).fam = F := rfl
@[simp] theorem State.accepted_err (s : State) (F : Family) : (s.accepted F).err = .none := rfl
@[simp] theorem State.accepted_lenLo (s : State) (F : Family) : (s.accepted F).lenLo = s.lenLo := rfl
@[simp] theorem State.accepted_lenHi (s : State) (F : Family) : (s.accepted F).lenHi = s.lenHi := rfl
@[simp] theorem State.accepted_mem (s : State) (F : Family) : (s.accepted F).mem = s.mem := rfl
@[simp] theorem State.accepted_engine (s : State) (F : Family) : (s.accepted F).engine = { s.engine with lenL := s.len, famL := F, phase := .load } := rfl
@[simp] theorem State.accepted_program (s : State) (F : Family) : (s.accepted F).program = s.program := rfl
@[simp] theorem State.accepted_turns (s : State) (F : Family) : (s.accepted F).turns = s.turns := rfl
@[simp] theorem State.accepted_reads (s : State) (F : Family) : (s.accepted F).reads = s.reads := rfl
@[simp] theorem State.accepted_draws (s : State) (F : Family) : (s.accepted F).draws = s.draws := rfl

/-! ## resetEvent -/

@[simp] theorem State.resetEvent_lastWord (s : State) : (s.resetEvent).lastWord = s.lastWord := rfl
@[simp] theorem State.resetEvent_busy (s : State) : (s.resetEvent).busy = false := rfl
@[simp] theorem State.resetEvent_dvalid (s : State) : (s.resetEvent).dvalid = false := rfl
@[simp] theorem State.resetEvent_fam (s : State) : (s.resetEvent).fam = .f32 := rfl
@[simp] theorem State.resetEvent_err (s : State) : (s.resetEvent).err = .none := rfl
@[simp] theorem State.resetEvent_lenLo (s : State) : (s.resetEvent).lenLo = 0x00000000#32 := rfl
@[simp] theorem State.resetEvent_lenHi (s : State) : (s.resetEvent).lenHi = 0x00000000#32 := rfl
@[simp] theorem State.resetEvent_mem (s : State) : (s.resetEvent).mem = s.mem := rfl
@[simp] theorem State.resetEvent_engine (s : State) : (s.resetEvent).engine = Engine.atRest s.draws (freeOctet s.draws 96) := rfl
@[simp] theorem State.resetEvent_program (s : State) : (s.resetEvent).program = s.program := rfl
@[simp] theorem State.resetEvent_turns (s : State) : (s.resetEvent).turns = s.turns := rfl
@[simp] theorem State.resetEvent_reads (s : State) : (s.resetEvent).reads = s.reads := rfl
@[simp] theorem State.resetEvent_draws (s : State) : (s.resetEvent).draws = s.draws + 1 := rfl

/-! ## complete -/

@[simp] theorem State.complete_lastWord (s : State) : (s.complete).lastWord = s.lastWord := rfl
@[simp] theorem State.complete_busy (s : State) : (s.complete).busy = false := rfl
@[simp] theorem State.complete_dvalid (s : State) : (s.complete).dvalid = true := rfl
@[simp] theorem State.complete_fam (s : State) : (s.complete).fam = s.fam := rfl
@[simp] theorem State.complete_err (s : State) : (s.complete).err = s.err := rfl
@[simp] theorem State.complete_lenLo (s : State) : (s.complete).lenLo = s.lenLo := rfl
@[simp] theorem State.complete_lenHi (s : State) : (s.complete).lenHi = s.lenHi := rfl
@[simp] theorem State.complete_mem (s : State) : (s.complete).mem = s.mem := rfl
@[simp] theorem State.complete_engine (s : State) : (s.complete).engine = Engine.atRest s.draws (s.engine.hash (Memory.read s.mem)).acc := rfl
@[simp] theorem State.complete_program (s : State) : (s.complete).program = s.program := rfl
@[simp] theorem State.complete_turns (s : State) : (s.complete).turns = s.turns := rfl
@[simp] theorem State.complete_reads (s : State) : (s.complete).reads = s.reads := rfl
@[simp] theorem State.complete_draws (s : State) : (s.complete).draws = s.draws + 1 := rfl

/-! ## withHostWord -/

@[simp] theorem State.withHostWord_lastWord (s : State) (w : HostWord) : (s.withHostWord w).lastWord = s.lastWord := rfl
@[simp] theorem State.withHostWord_busy (s : State) (w : HostWord) : (s.withHostWord w).busy = s.busy := rfl
@[simp] theorem State.withHostWord_dvalid (s : State) (w : HostWord) : (s.withHostWord w).dvalid = s.dvalid := rfl
@[simp] theorem State.withHostWord_fam (s : State) (w : HostWord) : (s.withHostWord w).fam = s.fam := rfl
@[simp] theorem State.withHostWord_err (s : State) (w : HostWord) : (s.withHostWord w).err = s.err := rfl
@[simp] theorem State.withHostWord_lenLo (s : State) (w : HostWord) : (s.withHostWord w).lenLo = s.lenLo := rfl
@[simp] theorem State.withHostWord_lenHi (s : State) (w : HostWord) : (s.withHostWord w).lenHi = s.lenHi := rfl
@[simp] theorem State.withHostWord_mem (s : State) (w : HostWord) : (s.withHostWord w).mem = s.mem := rfl
@[simp] theorem State.withHostWord_engine (s : State) (w : HostWord) : (s.withHostWord w).engine = s.engine := rfl
@[simp] theorem State.withHostWord_program (s : State) (w : HostWord) : (s.withHostWord w).program = .txn w :: s.program := rfl
@[simp] theorem State.withHostWord_turns (s : State) (w : HostWord) : (s.withHostWord w).turns = .host :: s.turns := rfl
@[simp] theorem State.withHostWord_reads (s : State) (w : HostWord) : (s.withHostWord w).reads = s.reads := rfl
@[simp] theorem State.withHostWord_draws (s : State) (w : HostWord) : (s.withHostWord w).draws = s.draws := rfl

/-! ## Engine.atRest -/

@[simp] theorem Engine.atRest_acc (d : Nat) (o : Octet 64) : (Engine.atRest d o).acc = o := rfl
@[simp] theorem Engine.atRest_phase (d : Nat) (o : Octet 64) : (Engine.atRest d o).phase = .idle := rfl

/-! ## What is computed from fields -/

theorem State.msgBytes_congr {s t : State} (h : t.lastWord = s.lastWord) : t.msgBytes = s.msgBytes := by
  rw [State.msgBytes, State.msgBytes, h]

theorem State.len_congr {s t : State} (hl : t.lenLo = s.lenLo) (hh : t.lenHi = s.lenHi) : t.len = s.len := by
  rw [State.len, State.len, hl, hh]

theorem State.message_congr {s t : State} (h : t.mem = s.mem) (n : Nat) : t.message n = s.message n := by
  rw [State.message, State.message, h]

theorem State.digestWord_congr {s t : State} (hv : t.dvalid = s.dvalid) (hf : t.fam = s.fam) (he : t.engine.acc = s.engine.acc)
    (j : Fin 16) : t.digestWord j = s.digestWord j := by
  simp only [State.digestWord, hv, hf, he]

/-- DIGEST reads 0 while DVALID = 0 (R208). -/
theorem State.digestWord_of_not_valid {s : State} (h : s.dvalid = false) (j : Fin 16) : s.digestWord j = 0x00000000#32 := by
  rw [State.digestWord, if_pos h]

end Sys2Proof.Machine
end

