-- ==== Sys2Proof/Laws/Ops.lean ====
section
/-!
SUPPORT. One lemma per shared operation that says once everything it can do, and the inversion of a step.
-/

namespace Sys2Proof.Machine

/-! ## Transactions -/

/-- A write to CMD, LEN or MSG is dropped with BUSY_WRITE, or performed (R273). -/
theorem State.writeUnlessBusy_cases (s : State) (f : State → State) :
    (s.busy = true ∧ s.writeUnlessBusy f = s.raiseError .busyWrite) ∨ (s.busy = false ∧ s.writeUnlessBusy f = f s) := by
  unfold State.writeUnlessBusy
  cases s.busy <;> simp

theorem State.writeUnlessBusy_busy {s : State} (h : s.busy = true) (f : State → State) :
    s.writeUnlessBusy f = s.raiseError .busyWrite := if_pos h

theorem State.writeUnlessBusy_idle {s : State} (h : s.busy = false) (f : State → State) : s.writeUnlessBusy f = f s :=
  if_neg (by simp [h])

/-- HASH is rejected with LEN_RANGE or accepted (R202). -/
theorem State.hashAccept_cases (s : State) (F : Family) :
    (s.msgBytes < s.len.toNat ∧ s.hashAccept F = s.raiseError .lenRange) ∨
      (s.len.toNat ≤ s.msgBytes ∧ s.hashAccept F = s.accepted F) := by
  unfold State.hashAccept
  by_cases h : s.msgBytes < s.len.toNat
  · exact .inl ⟨h, if_pos h⟩
  · exact .inr ⟨by omega, if_neg h⟩

/-- A bad access changes ERR, and a read returns 0 (R213). -/
theorem State.badAccess_eq (s : State) (d : Dir) :
    s.badAccess d = { s with err := .badAccess, reads := (s.badAccess d).reads } := by
  cases d <;> rfl

/-- Every address WRM and RDM do not turn away is a word of MSG (R55, R58). -/
theorem State.not_badMsgAddress {s : State} {a : Nat} (h : s.badMsgAddress a = false) :
    misaligned a = false ∧ a + 4 ≤ s.msgBytes := by
  simp only [State.badMsgAddress, State.outOfRange, Bool.or_eq_false_iff, decide_eq_false_iff_not, gt_iff_lt, not_lt] at h
  exact h

/-- What a transaction can do to the state. -/
inductive Effect (s : State) : State → Prop where
  /-- A read returned a value; nothing else changed. -/
  | read (v : Word32) : Effect s (s.returnRead v)
  /-- A write raised an error; nothing else changed. -/
  | error (c : ErrCode) (hc : c ≠ .none) : Effect s (s.raiseError c)
  /-- A read raised BAD_ACCESS and returned 0; nothing else changed. -/
  | badRead : Effect s (s.badAccess .rd)
  /-- LEN_LO was written. -/
  | lenLo (v : Word32) (hb : s.busy = false) : Effect s { s with lenLo := v }
  /-- LEN_HI was written. -/
  | lenHi (v : Word32) (hb : s.busy = false) : Effect s { s with lenHi := v }
  /-- A word of MSG was written. -/
  | msg (a : Nat) (v : Word32) (hb : s.busy = false) (ha : a + 4 ≤ s.msgBytes) :
      Effect s { s with mem := s.mem.writeWord a v }
  /-- A HASH was accepted. -/
  | accept (F : Family) (hb : s.busy = false) (hl : s.len.toNat ≤ s.msgBytes) : Effect s (s.accepted F)
  /-- CLEAR was performed. -/
  | clear (hb : s.busy = false) : Effect s s.clearCommand

/-- A write that is performed or dropped has an effect. -/
theorem Effect.of_write {s : State} {f : State → State} (h : s.busy = false → Effect s (f s)) :
    Effect s (s.writeUnlessBusy f) := by
  rcases s.writeUnlessBusy_cases f with ⟨-, e⟩ | ⟨hb, e⟩ <;> rw [e]
  · exact .error _ (by decide)
  · exact h hb

/-- A HASH word has an effect. -/
theorem Effect.of_hashAccept {s : State} (F : Family) (hb : s.busy = false) : Effect s (s.hashAccept F) := by
  rcases s.hashAccept_cases F with ⟨-, e⟩ | ⟨hl, e⟩ <;> rw [e]
  · exact .error _ (by decide)
  · exact .accept F hb hl

/-- Every transaction goes on, with one of the effects above. -/
theorem exec_effect (i : Instr) (s : State) : ∃ t, exec i s = .next t ∧ Effect s t := by
  cases i with
  | hash256 => exact ⟨_, rfl, .of_write fun hb => .of_hashAccept _ hb⟩
  | hash512 => exact ⟨_, rfl, .of_write fun hb => .of_hashAccept _ hb⟩
  | clear => exact ⟨_, rfl, .of_write fun hb => .clear hb⟩
  | illegalCmd v => exact ⟨_, rfl, .of_write fun _ => .error _ (by decide)⟩
  | wrCmd v =>
    refine ⟨_, rfl, .of_write fun hb => ?_⟩
    split_ifs
    · exact .error _ (by decide)
    · exact .of_hashAccept _ hb
    · exact .clear hb
  | rdCmd => exact ⟨_, rfl, .read _⟩
  | rdStatus => exact ⟨_, rfl, .read _⟩
  | wrStatus v => exact ⟨_, rfl, .error .badAccess (by decide)⟩
  | wrLenLo v => exact ⟨_, rfl, .of_write fun hb => .lenLo v hb⟩
  | rdLenLo => exact ⟨_, rfl, .read _⟩
  | wrLenHi v => exact ⟨_, rfl, .of_write fun hb => .lenHi v hb⟩
  | rdLenHi => exact ⟨_, rfl, .read _⟩
  | rdDigest j => exact ⟨_, rfl, .read _⟩
  | wrDigest j v => exact ⟨_, rfl, .error .badAccess (by decide)⟩
  | wrm a v =>
    refine ⟨_, rfl, ?_⟩
    split_ifs with h
    · exact .error .badAccess (by decide)
    · exact .of_write fun hb => .msg _ v hb (State.not_badMsgAddress (by simpa using h)).2
  | rdm a =>
    refine ⟨_, rfl, ?_⟩
    split_ifs
    · exact .badRead
    · exact .read _
  | badAccess dir off =>
    refine ⟨_, rfl, ?_⟩
    cases dir
    · exact .badRead
    · exact .error .badAccess (by decide)

/-! ## Steps -/

/-- Fetching a move changes the host's program and the turns only. -/
theorem State.nextMove_state (s : State) :
    s.nextMove.2 = { s with program := s.nextMove.2.program, turns := s.nextMove.2.turns } := by
  rcases s with ⟨lw, busy, dv, fam, err, lo, hi, mem, eng, prog, turns, reads, draws⟩
  rcases turns with _ | ⟨_ | _ | _, ts⟩ <;> rcases prog with _ | ⟨_ | _, ps⟩ <;> cases busy <;> rfl

/-- The completion step is only taken while BUSY = 1 (R203). -/
theorem State.busy_of_nextMove_complete {s : State} (h : s.nextMove.1 = .complete) : s.busy = true := by
  rcases s with ⟨lw, busy, dv, fam, err, lo, hi, mem, eng, prog, turns, reads, draws⟩
  rcases turns with _ | ⟨_ | _ | _, ts⟩ <;> rcases prog with _ | ⟨_ | _, ps⟩ <;> cases busy <;> simp_all
    [State.nextMove, State.hostMove, State.coreMove]

/-- What a step can do: perform the host word it fetches, complete, take the reset event, or nothing. -/
theorem step_cases (s : State) :
    (∃ w, s.nextMove.1 = .transact w ∧ step s = exec (decode w) s.nextMove.2) ∨
      (s.nextMove.1 = .complete ∧ step s = .next s.nextMove.2.complete) ∨
      (s.nextMove.1 = .reset ∧ step s = .next s.nextMove.2.resetEvent) ∨
      (s.nextMove.1 = .idle ∧ step s = .next s.nextMove.2) := by
  unfold step
  rcases s.nextMove with ⟨w | _ | _ | _, s'⟩ <;> simp

end Sys2Proof.Machine
end

