-- ==== Sys2Proof/Laws/PerInstr.lean ====
section
/-!
SUPPORT. A law stated per instruction, for the host's case split over `Instr`: every encoding lies in its row of
spec/opcode_table.json, that is, it has the row's format and meets the row's match under the row's mask.
-/

namespace Sys2Proof.Laws.TableRow

/-- A row: whether its format is CMD32, its match and its mask. -/
structure Row where
  isCommand : Bool
  matchBits : Nat
  mask : Nat
  deriving DecidableEq, Repr

/-- The rows, copied from spec/opcode_table.json. -/
def rowOf : Instr → Row
  | .hash256 => ⟨true, 0x00000001, 0xFFFFFFFF⟩
  | .hash512 => ⟨true, 0x00000011, 0xFFFFFFFF⟩
  | .clear => ⟨true, 0x00000002, 0xFFFFFFFF⟩
  | .illegalCmd _ => ⟨true, 0x00000000, 0x00000000⟩
  | .wrCmd _ => ⟨false, 0x200, 0x3FF⟩
  | .rdCmd => ⟨false, 0x000, 0x3FF⟩
  | .rdStatus => ⟨false, 0x004, 0x3FF⟩
  | .wrStatus _ => ⟨false, 0x204, 0x3FF⟩
  | .wrLenLo _ => ⟨false, 0x208, 0x3FF⟩
  | .rdLenLo => ⟨false, 0x008, 0x3FF⟩
  | .wrLenHi _ => ⟨false, 0x20C, 0x3FF⟩
  | .rdLenHi => ⟨false, 0x00C, 0x3FF⟩
  | .rdDigest _ => ⟨false, 0x040, 0x3C3⟩
  | .wrDigest _ _ => ⟨false, 0x240, 0x3C3⟩
  | .wrm _ _ => ⟨false, 0x300, 0x300⟩
  | .rdm _ => ⟨false, 0x100, 0x300⟩
  | .badAccess _ _ => ⟨false, 0x000, 0x000⟩

/-- The format and the bits of a host word, numbered as the table numbers them. -/
def bitsOf : HostWord → Bool × Nat
  | .bus td _ _ => (false, td.toNat)
  | .cmd v => (true, v.toNat)

/-- The encoding of `i` lies in its row. -/
def Statement (i : Instr) : Prop :=
  (bitsOf (encode i)).1 = (rowOf i).isCommand ∧ (bitsOf (encode i)).2 &&& (rowOf i).mask = (rowOf i).matchBits

theorem hash256 : Statement .hash256 := ⟨rfl, rfl⟩
theorem hash512 : Statement .hash512 := ⟨rfl, rfl⟩
theorem clear : Statement .clear := ⟨rfl, rfl⟩
theorem illegalCmd (v : Word32) : Statement (.illegalCmd v) := ⟨rfl, Nat.and_zero _⟩
theorem wrCmd (v : Word32) : Statement (.wrCmd v) := ⟨rfl, (by decide : (tdOf .wr false 0x00#8).toNat &&& 0x3FF = 0x200)⟩
theorem rdCmd : Statement .rdCmd := ⟨rfl, rfl⟩
theorem rdStatus : Statement .rdStatus := ⟨rfl, rfl⟩
theorem wrStatus (v : Word32) : Statement (.wrStatus v) := ⟨rfl, (by decide : (tdOf .wr false 0x04#8).toNat &&& 0x3FF = 0x204)⟩
theorem wrLenLo (v : Word32) : Statement (.wrLenLo v) := ⟨rfl, (by decide : (tdOf .wr false 0x08#8).toNat &&& 0x3FF = 0x208)⟩
theorem rdLenLo : Statement .rdLenLo := ⟨rfl, rfl⟩
theorem wrLenHi (v : Word32) : Statement (.wrLenHi v) := ⟨rfl, (by decide : (tdOf .wr false 0x0C#8).toNat &&& 0x3FF = 0x20C)⟩
theorem rdLenHi : Statement .rdLenHi := ⟨rfl, rfl⟩

theorem rdDigest (j : Fin 16) : Statement (.rdDigest j) := by
  revert j
  unfold Statement
  decide

theorem wrDigest (j : Fin 16) (v : Word32) : Statement (.wrDigest j v) := by
  have h : ∀ j : Fin 16, Statement (.wrDigest j 0#32) := by
    unfold Statement
    decide
  exact h j

theorem wrm (a : Nat) (v : Word32) : Statement (.wrm a v) := ⟨rfl, (by decide : (tdOf .wr true 0#8).toNat &&& 0x300 = 0x300)⟩
theorem rdm (a : Nat) : Statement (.rdm a) := ⟨rfl, (by decide : (tdOf .rd true 0#8).toNat &&& 0x300 = 0x100)⟩
theorem badAccess (dir : Dir) (off : BitVec 8) : Statement (.badAccess dir off) := ⟨rfl, Nat.and_zero _⟩

end Sys2Proof.Laws.TableRow
end

