-- ==== Sys2Proof/Laws/Sequencer.lean ====
section
/-!
SUPPORT. What the phases of the reference sequence do (R183): LOAD leaves W[0..15], EXPAND the whole schedule, ROUND the
rounds, each as one lemma over its micro-steps.
-/

namespace Sys2Proof.Machine

variable {w : Nat}

/-! ## Micro-steps one by one -/

@[simp] theorem Engine.run_zero (D : Desc w) (msg : Nat → Byte) (e : Engine) : e.run D msg 0 = e := rfl

theorem Engine.run_add (D : Desc w) (msg : Nat → Byte) (m n : Nat) (e : Engine) :
    e.run D msg (m + n) = (e.run D msg m).run D msg n := by
  induction m generalizing e with
  | zero => rw [Nat.zero_add]; rfl
  | succ m ih => rw [show m + 1 + n = m + n + 1 by omega]; exact ih _

/-- The last micro-step applied after the others. -/
theorem Engine.run_succ (D : Desc w) (msg : Nat → Byte) (n : Nat) (e : Engine) :
    e.run D msg (n + 1) = (e.run D msg n).advance D msg := Engine.run_add D msg n 1 e

theorem Engine.advance_load {D : Desc w} {msg : Nat → Byte} {e : Engine} (h : e.phase = .load) :
    e.advance D msg = e.loadStep D msg := by rw [Engine.advance, h]

theorem Engine.advance_expand {D : Desc w} {msg : Nat → Byte} {e : Engine} (h : e.phase = .expand) :
    e.advance D msg = e.expandStep D := by rw [Engine.advance, h]

theorem Engine.advance_round {D : Desc w} {msg : Nat → Byte} {e : Engine} (h : e.phase = .round) :
    e.advance D msg = e.roundStep D := by rw [Engine.advance, h]

theorem Engine.advance_fold {D : Desc w} {msg : Nat → Byte} {e : Engine} (h : e.phase = .fold) :
    e.advance D msg = e.foldStep w := by rw [Engine.advance, h]

/-- An idle sequencer stays idle. -/
theorem Engine.run_idle (D : Desc w) (msg : Nat → Byte) (n : Nat) {e : Engine} (h : e.phase = .idle) : e.run D msg n = e := by
  induction n with
  | zero => rfl
  | succ n ih => rw [Engine.run_succ, ih, Engine.advance, h]

/-! ## Schedule storage -/

/-- A schedule word written is read back. -/
theorem Engine.wordAt_set_same (hw : w ≤ 64) (e : Engine) {t : Nat} (ht : t < 80) (x : BitVec w) (e' : Engine)
    (h : e'.sched = e.sched.setIfInBounds t (toStore x)) : e'.wordAt w t = x := by
  rw [Engine.wordAt, h, Vector.getElem?_setIfInBounds_self, if_pos ht, Option.getD_some, ofStore_toStore hw]

/-- The other schedule words are left alone. -/
theorem Engine.wordAt_set_other (e : Engine) {t i : Nat} (hi : t ≠ i) (x : Word64) (e' : Engine)
    (h : e'.sched = e.sched.setIfInBounds t x) : e'.wordAt w i = e.wordAt w i := by
  rw [Engine.wordAt, h, Vector.getElem?_setIfInBounds_ne hi, Engine.wordAt]

/-! ## The phases -/

/-- The bytes of block k of the padded message are those of the byte string `bl`. -/
def BlockIs (D : Desc w) (msg : Nat → Byte) (len k : Nat) (bl : List Byte) : Prop :=
  ∀ i, i < D.blockBytes → paddedByte D msg len (k * D.blockBytes + i) = bl.getD i 0#8

/-- LOAD (R150): after j loads the first j schedule words stand, and nothing but the schedule, t and the phase has changed. -/
theorem Engine.run_load {D : Desc w} (hD : D.Sized) {msg : Nat → Byte} {bl : List Byte} {e : Engine}
    (hp : e.phase = .load) (ht : e.t = 0) (hb : BlockIs D msg e.lenL.toNat e.block bl) {j : Nat} (hj : j ≤ 16) :
    e.run D msg j = { e with
        sched := (e.run D msg j).sched, t := j, phase := if j = 16 then .expand else .load } ∧
      ∀ i, i < j → (e.run D msg j).wordAt w i = (decodeWords D bl).getD i 0#w := by
  induction j with
  | zero =>
    refine ⟨?_, fun i hi => by omega⟩
    rw [Engine.run_zero, if_neg (by omega), ← hp, ← ht]
  | succ j ih =>
    obtain ⟨he, hw⟩ := ih (by omega)
    rw [Engine.run_succ]
    generalize e.run D msg j = e' at he hw
    have hp' : e'.phase = .load := by rw [he]; exact if_neg (by omega)
    have ht' : e'.t = j := by rw [he]
    have hl' : e'.lenL = e.lenL := by rw [he]
    have hk' : e'.block = e.block := by rw [he]
    rw [Engine.advance_load hp']
    refine ⟨?_, fun i hi => ?_⟩
    · rw [Engine.loadStep, ht', he]
    · rcases Nat.lt_succ_iff_lt_or_eq.1 hi with hi | rfl
      · rw [← hw i hi]
        exact Engine.wordAt_set_other e' (show e'.t ≠ i by omega) _ _ rfl
      · rw [← ht', Engine.wordAt_set_same hD.narrow e' (by omega) _ _ rfl, ht', hl', hk']
        simp only [decodeWords, List.getD_eq_getElem?_getD, List.getElem?_map, List.getElem?_range (show i < 16 by omega),
          Option.map_some, Option.getD_some]
        refine beWord_congr fun q hq => ?_
        rw [← List.getD_eq_getElem?_getD]
        refine hb _ ?_
        have := Nat.mul_le_mul_right D.wordBytes (show i + 1 ≤ 16 by omega)
        have := hD.block16
        rw [Nat.add_mul] at *
        omega

/-- Schedule words below 16 are the decoded ones (R150), the others obey the recurrence (R151). -/
theorem schedule_getD (D : Desc w) (hD : D.Sized) (bl : List Byte) {i : Nat} (hi : i < D.rounds) :
    (schedule D bl).getD i 0#w =
      if i < 16 then (decodeWords D bl).getD i 0#w
      else nextWord D ((schedule D bl).getD (i - 16) 0#w) ((schedule D bl).getD (i - 15) 0#w)
        ((schedule D bl).getD (i - 7) 0#w) ((schedule D bl).getD (i - 2) 0#w) := by
  have hl := length_decodeWords D bl
  have := hD.rounds16
  split_ifs with h
  · exact expandWords_old _ _ _ (by omega)
  · exact expandWords_new _ _ _ (by omega) (by omega) (by omega)

/-- EXPAND (R151): after j expansions the first 16 + j schedule words stand; after the last the working copy is loaded (R174). -/
theorem Engine.run_expand {D : Desc w} (hD : D.Sized) {msg : Nat → Byte} {bl : List Byte} {e : Engine}
    (hp : e.phase = .expand) (ht : e.t = 16) (hw : ∀ i, i < 16 → e.wordAt w i = (decodeWords D bl).getD i 0#w)
    {j : Nat} (hj : 16 + j ≤ D.rounds) :
    e.run D msg j = { e with
        sched := (e.run D msg j).sched
        work := if 16 + j = D.rounds then e.acc else e.work
        t := if 16 + j = D.rounds then 0 else 16 + j
        phase := if 16 + j = D.rounds then .round else .expand } ∧
      ∀ i, i < 16 + j → (e.run D msg j).wordAt w i = (schedule D bl).getD i 0#w := by
  have h16 := hD.rounds16
  have h80 := hD.rounds80
  induction j with
  | zero =>
    refine ⟨?_, fun i hi => ?_⟩
    · rw [Engine.run_zero, if_neg (by omega), if_neg (by omega), if_neg (by omega), ← hp, Nat.add_zero, ← ht]
    · rw [Engine.run_zero, hw i hi, schedule_getD D hD bl (by omega), if_pos hi]
  | succ j ih =>
    obtain ⟨he, hws⟩ := ih (by omega)
    rw [Engine.run_succ]
    rw [if_neg (by omega), if_neg (by omega), if_neg (by omega)] at he
    generalize e.run D msg j = e' at he hws
    have hp' : e'.phase = .expand := by rw [he]
    have ht' : e'.t = 16 + j := by rw [he]
    rw [Engine.advance_expand hp']
    refine ⟨?_, fun i hi => ?_⟩
    · rw [Engine.expandStep, ht', he]
      rfl
    · rcases Nat.lt_succ_iff_lt_or_eq.1 (show i < (16 + j) + 1 by omega) with hi | rfl
      · rw [← hws i hi]
        exact Engine.wordAt_set_other e' (show e'.t ≠ i by omega) _ _ rfl
      · rw [← ht', Engine.wordAt_set_same hD.narrow e' (by omega) _ _ rfl, ht', schedule_getD D hD bl (by omega),
          if_neg (by omega), hws _ (by omega), hws _ (by omega), hws _ (by omega), hws _ (by omega)]

/-- ROUND (R175, R176): after j rounds the working registers hold what j rounds make of them. -/
theorem Engine.run_round {D : Desc w} (hD : D.Sized) {msg : Nat → Byte} {ws : List (BitVec w)} {v : Octet w} {e : Engine}
    (hp : e.phase = .round) (ht : e.t = 0) (hv : e.work.map (ofStore w) = v)
    (hw : ∀ i, i < D.rounds → e.wordAt w i = ws.getD i 0#w) {j : Nat} (hj : j ≤ D.rounds) :
    e.run D msg j = { e with
        work := (e.run D msg j).work, t := j, phase := if j = D.rounds then .fold else .round } ∧
      (e.run D msg j).work.map (ofStore w) = roundsFrom D ws j 0 v := by
  have h16 := hD.rounds16
  induction j with
  | zero =>
    refine ⟨?_, hv⟩
    rw [Engine.run_zero, if_neg (by omega), ← hp, ← ht]
  | succ j ih =>
    obtain ⟨he, hr⟩ := ih (by omega)
    rw [Engine.run_succ]
    rw [if_neg (by omega)] at he
    generalize e.run D msg j = e' at he hr
    have hp' : e'.phase = .round := by rw [he]
    have ht' : e'.t = j := by rw [he]
    have hw' : e'.wordAt w j = ws.getD j 0#w := by
      rw [← hw j (by omega), he]
      rfl
    rw [Engine.advance_round hp']
    refine ⟨?_, ?_⟩
    · rw [Engine.roundStep, ht', he]
    · rw [Engine.roundStep, ht', hw', hr, roundsFrom_succ, Nat.zero_add, Octet.map_ofStore_toStore hD.narrow]

/-- One block (R174 to R178): from LOAD, `blockSteps` micro-steps compress the block into the accumulators and pass on to the
next block, or to IDLE after the last. -/
theorem Engine.run_block {D : Desc w} (hD : D.Sized) {msg : Nat → Byte} {bl : List Byte} {e : Engine}
    (hp : e.phase = .load) (ht : e.t = 0) (hb : BlockIs D msg e.lenL.toNat e.block bl) :
    ∃ work sched, e.run D msg (blockSteps D) = { e with
        acc := (compressBlock D (e.acc.map (ofStore w)) bl).map toStore
        work := work
        sched := sched
        block := e.block + 1
        t := 0
        phase := if e.block + 1 = e.blocks then .idle else .load } := by
  have h16 := hD.rounds16
  obtain ⟨h1, w1⟩ := Engine.run_load hD hp ht hb (le_refl 16)
  unfold blockSteps
  rw [Engine.run_add, Engine.run_add, Engine.run_add]
  generalize e.run D msg 16 = e1 at h1 w1 ⊢
  rw [if_pos rfl] at h1
  obtain ⟨h2, w2⟩ := Engine.run_expand (msg := msg) hD (e := e1) (by rw [h1]) (by rw [h1]) w1
    (j := D.rounds - 16) (by omega)
  generalize e1.run D msg (D.rounds - 16) = e2 at h2 w2 ⊢
  rw [if_pos (by omega), if_pos (by omega), if_pos (by omega)] at h2
  obtain ⟨h3, w3⟩ := Engine.run_round (msg := msg) hD (e := e2) (ws := schedule D bl) (by rw [h2]) (by rw [h2]) rfl
    (fun i hi => w2 i (by omega)) (le_refl D.rounds)
  generalize e2.run D msg D.rounds = e3 at h3 w3 ⊢
  rw [if_pos rfl] at h3
  rw [show e3.run D msg 1 = e3.advance D msg from rfl, Engine.advance_fold (by rw [h3])]
  have hacc : e3.acc = e.acc := by rw [h3, h2, h1]
  have hwork : e2.work = e.acc := by rw [h2, h1]
  refine ⟨e3.work, e3.sched, ?_⟩
  rw [Engine.foldStep, w3, hacc, hwork, compressBlock, h3, h2, h1]

end Sys2Proof.Machine
end

