-- ==== Sys2Proof/Tests/Slice0.lean ====
section
/-!
SUPPORT. The model's own tests. Every expected value is the spec's (95_test_vectors.md, or an example or corner case of the
rule named), never one the model gave. The last part shows, for each statement with hypotheses, states and operands that meet
them.
-/

namespace Sys2Proof.Tests

open Sys2Proof Sys2Proof.Machine

/-! ## States and what is seen of them -/

/-- The next state, if there is one. -/
def nextOf : Host.Outcome State Fault Refusal → Option State
  | .next t => some t
  | .fault _ => none
  | .refused _ => none

/-- STATUS, LEN and the values read, after the host word `w` in `s`. -/
def seen (w : HostWord) (s : State) : Option (Word32 × Word64 × List Word32) :=
  (nextOf (exec (decode w) s)).map fun t => (t.statusWord, t.len, t.reads)

/-- The reset state with LEN = n. -/
def withLen (n : Word64) : State :=
  { State.reset with lenHi := n.extractLsb' 32 32, lenLo := n.extractLsb' 0 32 }

/-- A HASH of family F and length n in progress, MSG holding "abc" (61 62 63). -/
def hashing (F : Family) (n : Word64) : State :=
  { withLen n with
    busy := true
    fam := F
    mem := [(0, 0x61#8), (1, 0x62#8), (2, 0x63#8)]
    engine := { Engine.reset with lenL := n, famL := F, phase := .load } }

/-- The digest of "abc" under FAM 0 (95_test_vectors.md 1.1, K2). -/
def k2 : Octet 64 :=
  ⟨0xba7816bf#64, 0x8f01cfea#64, 0x414140de#64, 0x5dae2223#64, 0xb00361a3#64, 0x96177a9c#64, 0xb410ff61#64, 0xf20015ad#64⟩

/-- The digest of "abc" under FAM 1 (95_test_vectors.md 1.1, K4). -/
def k4 : Octet 64 :=
  ⟨0xddaf35a193617aba#64, 0xcc417349ae204131#64, 0x12e6fa4e89a97ea2#64, 0x0a9eeee64b55d39a#64,
   0x2192992a274fc1a8#64, 0x36ba3c23a3feebbd#64, 0x454d4423643ce80e#64, 0x2a9ac94fa54ca49f#64⟩

/-- The state in which a HASH of "abc" has completed. -/
def hashed (F : Family) (acc : Octet 64) : State :=
  { withLen 3#64 with
    dvalid := true
    fam := F
    mem := [(0, 0x61#8), (1, 0x62#8), (2, 0x63#8)]
    engine := { Engine.reset with acc := acc } }

/-- The sixteen DIGEST words. -/
def digestOf (s : State) : List Word32 := (List.finRange 16).map s.digestWord

/-! ## Well-formedness: a term each check refuses, and one it accepts -/

theorem test_wf_refuses_legal_word_as_illegal :
    (Instr.illegalCmd 0x00000001#32).wf = false ∧ (Instr.illegalCmd 0x00000011#32).wf = false ∧
      (Instr.illegalCmd 0x00000002#32).wf = false ∧ (Instr.illegalCmd 0x00000012#32).wf = true := by decide

theorem test_wf_refuses_mapped_offset_as_bad :
    (Instr.badAccess .rd 0x0C#8).wf = false ∧ (Instr.badAccess .wr 0x7C#8).wf = false ∧
      (Instr.badAccess .rd 0x10#8).wf = true ∧ (Instr.badAccess .rd 0x3C#8).wf = true ∧
      (Instr.badAccess .wr 0x80#8).wf = true ∧ (Instr.badAccess .wr 0x06#8).wf = true := by decide

/-! ## Decoding: one word per constructor, written out from 30_encoding.md R84, R86 (RSVD | FAM | OP; DIR | SPACE | OFFSET) -/

theorem test_decode_hash256 : decode (.cmd (0b000000000000000000000000000#27 ++ 0b0#1 ++ 0b0001#4)) = .hash256 := by decide
theorem test_decode_hash512 : decode (.cmd (0b000000000000000000000000000#27 ++ 0b1#1 ++ 0b0001#4)) = .hash512 := by decide
theorem test_decode_clear : decode (.cmd (0b000000000000000000000000000#27 ++ 0b0#1 ++ 0b0010#4)) = .clear := by decide

/-- The illegal words of 95_test_vectors.md 2.6. -/
theorem test_decode_illegal :
    [0x00000000#32, 0x00000012#32, 0x00000003#32, 0x0000000f#32, 0x00000010#32, 0x00000021#32, 0x80000001#32,
      0xffffffff#32].all (fun v => decode (.cmd v) == .illegalCmd v) = true := by decide

theorem test_decode_wrCmd : decode (.bus (0b1#1 ++ 0b0#1 ++ 0b00000000#8) 0 0x12#32) = .wrCmd 0x12#32 := by decide
theorem test_decode_rdCmd : decode (.bus (0b0#1 ++ 0b0#1 ++ 0b00000000#8) 0 0#32) = .rdCmd := by decide
theorem test_decode_rdStatus : decode (.bus (0b0#1 ++ 0b0#1 ++ 0b00000100#8) 0 0#32) = .rdStatus := by decide
theorem test_decode_wrStatus : decode (.bus (0b1#1 ++ 0b0#1 ++ 0b00000100#8) 0 5#32) = .wrStatus 5#32 := by decide
theorem test_decode_wrLenLo : decode (.bus (0b1#1 ++ 0b0#1 ++ 0b00001000#8) 0 3#32) = .wrLenLo 3#32 := by decide
theorem test_decode_rdLenLo : decode (.bus (0b0#1 ++ 0b0#1 ++ 0b00001000#8) 0 0#32) = .rdLenLo := by decide
theorem test_decode_wrLenHi : decode (.bus (0b1#1 ++ 0b0#1 ++ 0b00001100#8) 0 1#32) = .wrLenHi 1#32 := by decide
theorem test_decode_rdLenHi : decode (.bus (0b0#1 ++ 0b0#1 ++ 0b00001100#8) 0 0#32) = .rdLenHi := by decide

theorem test_decode_rdDigest :
    decode (.bus (0b0#1 ++ 0b0#1 ++ 0b01000000#8) 0 0#32) = .rdDigest 0 ∧
      decode (.bus (0b0#1 ++ 0b0#1 ++ 0b01101100#8) 0 0#32) = .rdDigest 11 ∧
      decode (.bus (0b0#1 ++ 0b0#1 ++ 0b01111100#8) 0 0#32) = .rdDigest 15 := by decide

theorem test_decode_wrDigest :
    decode (.bus (0b1#1 ++ 0b0#1 ++ 0b01001100#8) 0 0x12345678#32) = .wrDigest 3 0x12345678#32 := by decide

/-- TD[7:0] of an MSG transaction is ignored. -/
theorem test_decode_wrm :
    decode (.bus (0b1#1 ++ 0b1#1 ++ 0b00000000#8) 0xfc 7#32) = .wrm 0xfc 7#32 ∧
      decode (.bus (0b1#1 ++ 0b1#1 ++ 0b10000011#8) 0xfc 7#32) = .wrm 0xfc 7#32 := by decide

theorem test_decode_rdm :
    decode (.bus (0b0#1 ++ 0b1#1 ++ 0b00000000#8) 0x101 0#32) = .rdm 0x101 ∧
      decode (.bus (0b0#1 ++ 0b1#1 ++ 0b11111111#8) 0x101 0#32) = .rdm 0x101 := by decide

theorem test_decode_badAccess :
    decode (.bus (0b0#1 ++ 0b0#1 ++ 0b00010000#8) 0 0#32) = .badAccess .rd 0x10#8 ∧
      decode (.bus (0b1#1 ++ 0b0#1 ++ 0b00000010#8) 0 1#32) = .badAccess .wr 0x02#8 ∧
      decode (.bus (0b0#1 ++ 0b0#1 ++ 0b11111100#8) 0 0#32) = .badAccess .rd 0xFC#8 := by decide

/-- spec/opcode_table.json: the match of each row that has bits of its own decodes to that row. -/
theorem test_table_words :
    [decodeTableWord 32 0x1, decodeTableWord 32 0x11, decodeTableWord 32 0x2, decodeTableWord 32 0x0,
      decodeTableWord 16 0x200, decodeTableWord 16 0x000, decodeTableWord 16 0x004, decodeTableWord 16 0x204,
      decodeTableWord 16 0x208, decodeTableWord 16 0x008, decodeTableWord 16 0x20C, decodeTableWord 16 0x00C,
      decodeTableWord 16 0x040, decodeTableWord 16 0x240, decodeTableWord 16 0x300, decodeTableWord 16 0x100] =
    [some .hash256, some .hash512, some .clear, some (.illegalCmd 0#32), some (.wrCmd 0#32), some .rdCmd, some .rdStatus,
      some (.wrStatus 0#32), some (.wrLenLo 0#32), some .rdLenLo, some (.wrLenHi 0#32), some .rdLenHi, some (.rdDigest 0),
      some (.wrDigest 0 0#32), some (.wrm 0 0#32), some (.rdm 0)] := by decide

/-- A placed table word is what the next step performs (assumption 6). -/
theorem test_fetch_word :
    step (State.reset.withFetchWord 32 0x11) = exec .hash512 State.reset ∧
      step (State.reset.withFetchWord 16 0x300) = exec (.wrm 0 0#32) State.reset := ⟨rfl, rfl⟩

/-! ## Transactions (95_test_vectors.md 2.7; T<n> is its row) -/

/-- T9: LEN = MSG_BYTES is accepted. -/
theorem test_hash256_accepts_whole_memory : seen (.cmd 0x1#32) (withLen 256#64) = some (0x01#32, 256#64, []) := by decide

/-- T32: an accepted HASH clears ERR and DVALID. -/
theorem test_hash256_clears_error :
    seen (.cmd 0x1#32) { hashed .f32 k2 with err := .illegalCmd } = some (0x01#32, 3#64, []) := by decide

/-- T10. -/
theorem test_hash512_out_of_range : seen (.cmd 0x11#32) (withLen 257#64) = some (0x20#32, 257#64, []) := by decide

/-- T11: the old digest is discarded at acceptance. -/
theorem test_hash512_discards_digest :
    (nextOf (exec .hash512 { hashed .f32 k2 with lenLo := 0#32 })).map (fun t => (t.statusWord, digestOf t)) =
      some (0x05#32, List.replicate 16 0#32) := by decide

/-- T20. -/
theorem test_clear :
    (nextOf (exec .clear { hashed .f32 k2 with err := .busyWrite })).map
        (fun t => (t.statusWord, t.engine.acc, t.len, t.mem)) =
      some (0x00#32, Octet.zero 64, 3#64, [(0, 0x61#8), (1, 0x62#8), (2, 0x63#8)]) := by decide

/-- T14. -/
theorem test_clear_while_busy : seen (.cmd 0x2#32) (hashing .f32 3#64) = some (0x31#32, 3#64, []) := by decide

/-- T21: the digest stays valid. -/
theorem test_illegal_keeps_digest :
    (nextOf (exec (.illegalCmd 0x12#32) (hashed .f32 k2))).map (fun t => (t.statusWord, t.digestWord 0)) =
      some (0x12#32, 0xba7816bf#32) := by decide

/-- R205: while BUSY = 1 an illegal word raises BUSY_WRITE instead. -/
theorem test_illegal_while_busy : seen (.cmd 0x3#32) (hashing .f32 3#64) = some (0x31#32, 3#64, []) := by decide

/-- T8. -/
theorem test_wrCmd_out_of_range :
    seen (.bus 0x200#10 0 0x1#32) (withLen 0x100000003#64) = some (0x20#32, 0x100000003#64, []) := by decide

/-- R201, example. -/
theorem test_wrCmd_starts_hash512 : seen (.bus 0x200#10 0 0x11#32) (withLen 3#64) = some (0x05#32, 3#64, []) := by decide

/-- T2. -/
theorem test_rdCmd : seen (.bus 0x000#10 0 0#32) State.reset = some (0#32, 0#64, [0#32]) := by decide

/-- R206, example; a read does not clear ERR (T31). -/
theorem test_rdStatus :
    seen (.bus 0x004#10 0 0#32) (hashed .f64 k4) = some (0x06#32, 3#64, [0x06#32]) ∧
      seen (.bus 0x004#10 0 0#32) { State.reset with err := .badAccess } = some (0x40#32, 0#64, [0x40#32]) := by decide

/-- T18 and the example of R209. -/
theorem test_wrStatus :
    seen (.bus 0x204#10 0 0#32) (hashing .f32 3#64) = some (0x41#32, 3#64, []) ∧
      seen (.bus 0x204#10 0 0#32) (hashed .f32 k2) = some (0x42#32, 3#64, []) := by decide

/-- T4, T15. -/
theorem test_wrLenLo :
    seen (.bus 0x208#10 0 3#32) State.reset = some (0x00#32, 3#64, []) ∧
      seen (.bus 0x208#10 0 5#32) (hashing .f32 3#64) = some (0x31#32, 3#64, []) := by decide

/-- T5. -/
theorem test_wrLenHi : seen (.bus 0x20C#10 0 1#32) (withLen 3#64) = some (0x00#32, 0x100000003#64, []) := by decide

/-- T7, T17. -/
theorem test_rdLenLo :
    seen (.bus 0x008#10 0 0#32) (withLen 0x100000003#64) = some (0x00#32, 0x100000003#64, [3#32]) ∧
      seen (.bus 0x008#10 0 0#32) (hashing .f32 3#64) = some (0x01#32, 3#64, [3#32]) := by decide

/-- T6. -/
theorem test_rdLenHi :
    seen (.bus 0x00C#10 0 0#32) (withLen 0x100000003#64) = some (0x00#32, 0x100000003#64, [1#32]) := by decide

/-- 2.5, FAM 0 and DVALID = 0. -/
theorem test_digest_words_f32 :
    digestOf (hashed .f32 k2) =
      [0xba7816bf#32, 0x8f01cfea#32, 0x414140de#32, 0x5dae2223#32, 0xb00361a3#32, 0x96177a9c#32, 0xb410ff61#32, 0xf20015ad#32,
       0#32, 0#32, 0#32, 0#32, 0#32, 0#32, 0#32, 0#32] ∧
    digestOf { hashed .f32 k2 with dvalid := false } = List.replicate 16 0#32 := by decide

/-- 2.5, FAM 1. -/
theorem test_digest_words_f64 :
    digestOf (hashed .f64 k4) =
      [0xddaf35a1#32, 0x93617aba#32, 0xcc417349#32, 0xae204131#32, 0x12e6fa4e#32, 0x89a97ea2#32, 0x0a9eeee6#32, 0x4b55d39a#32,
       0x2192992a#32, 0x274fc1a8#32, 0x36ba3c23#32, 0xa3feebbd#32, 0x454d4423#32, 0x643ce80e#32, 0x2a9ac94f#32,
       0xa54ca49f#32] := by decide

/-- T23. -/
theorem test_wrDigest : seen (.bus 0x24C#10 0 0x12345678#32) State.reset = some (0x40#32, 0#64, []) := by decide

/-- T27: the last word of MSG; the bytes are packed big-endian. -/
theorem test_wrm_last_word :
    (nextOf (exec (.wrm 0xfc 0x11223344#32) State.reset)).map (fun t => (t.statusWord, t.mem)) =
      some (0x00#32, [(252, 0x11#8), (253, 0x22#8), (254, 0x33#8), (255, 0x44#8)]) := by decide

/-- T16, T19, T29: dropped while busy, misaligned wins over busy, out of range. -/
theorem test_wrm_dropped :
    (nextOf (exec (.wrm 0x000 0#32) (hashing .f32 3#64))).map (fun t => (t.statusWord, t.mem.length)) =
        some (0x31#32, 3) ∧
      seen (.bus 0x300#10 0x002 0#32) (hashing .f32 3#64) = some (0x41#32, 3#64, []) ∧
      seen (.bus 0x300#10 0x100 0#32) State.reset = some (0x40#32, 0#64, []) := by decide

/-- T28. -/
theorem test_rdm :
    seen (.bus 0x100#10 0xfc 0#32)
        { State.reset with mem := [(252, 0x11#8), (253, 0x22#8), (254, 0x33#8), (255, 0x44#8)] } =
      some (0x00#32, 0#64, [0x11223344#32]) := by decide

/-- T30. -/
theorem test_rdm_bad : seen (.bus 0x100#10 0x101 0#32) State.reset = some (0x40#32, 0#64, [0#32]) := by decide

/-- T24, T25, T26. -/
theorem test_badAccess_read :
    seen (.bus 0x010#10 0 0#32) State.reset = some (0x40#32, 0#64, [0#32]) ∧
      seen (.bus 0x006#10 0 0#32) State.reset = some (0x40#32, 0#64, [0#32]) ∧
      seen (.bus 0x080#10 0 0#32) State.reset = some (0x40#32, 0#64, [0#32]) := by decide

/-- R213: a misaligned write near CMD never reaches the command decoder. -/
theorem test_badAccess_write : seen (.bus 0x201#10 0 0x1#32) (withLen 3#64) = some (0x40#32, 3#64, []) := by decide

/-- R88, R58: with the largest MSG, 2^64 bytes, the word of LOADMSG at its top is stored and the word past it is a bad access. -/
theorem test_loadMsg_past_the_top :
    let s := State.launch (Fin.last _) [] (Pseudo.loadMsg (2 ^ 64 - 4) [1#8, 2#8, 3#8, 4#8, 5#8]).expand []
    ((s.after 1).statusWord, (s.after 2).statusWord, (s.after 2).mem) =
      (0x00#32, 0x40#32, [(2 ^ 64 - 4, 1#8), (2 ^ 64 - 3, 2#8), (2 ^ 64 - 2, 3#8), (2 ^ 64 - 1, 4#8)]) := by decide

/-! ## The core's step and the reset event -/

/-- T12, T13, T33: STATUS across the completion step; the message has length 0, its content does not matter here. -/
theorem test_completion_status :
    (nextOf (step (hashing .f32 0#64))).map (·.statusWord) = some 0x02#32 ∧
      (nextOf (step (hashing .f64 0#64))).map (·.statusWord) = some 0x06#32 ∧
      (nextOf (step { hashing .f32 0#64 with err := .busyWrite })).map (·.statusWord) = some 0x32#32 := by decide

/-- K2 (95_test_vectors.md 1.1): the completion step of "abc" under FAM 0. -/
theorem test_completion_abc_f32 : (nextOf (step (hashing .f32 3#64))).map (·.engine.acc) = some k2 := by decide +kernel

/-- K4: the completion step of "abc" under FAM 1. -/
theorem test_completion_abc_f64 : (nextOf (step (hashing .f64 3#64))).map (·.engine.acc) = some k4 := by decide +kernel

/-- 2.8: the reset event while BUSY = 1, and with DVALID, FAM and ERR set. -/
theorem test_reset_event :
    (nextOf (step { hashing .f32 3#64 with turns := [.reset] })).map (fun t => (t.statusWord, t.len, digestOf t, t.mem)) =
        some (0#32, 0#64, List.replicate 16 0#32, [(0, 0x61#8), (1, 0x62#8), (2, 0x63#8)]) ∧
      (nextOf (step { hashed .f64 k4 with err := .badAccess, turns := [.reset] })).map (·.statusWord) = some 0#32 := by decide

/-! ## The bit mixer (95_test_vectors.md 2.1) -/

theorem test_add_not_shr :
    0x6a09e667#32 + 0x5d6aebcd#32 = 0xc774d234#32 ∧ 0xffffffff#32 + 0x00000001#32 = 0#32 ∧
      0xffffffffffffffff#64 + 0xffffffffffffffff#64 = 0xfffffffffffffffe#64 ∧ ~~~0x0000ffff#32 = 0xffff0000#32 ∧
      shr 0xffffffff#32 10 = 0x003fffff#32 := by decide

theorem test_rotr :
    rotr 0x00000001#32 1 = 0x80000000#32 ∧ rotr 0x12345678#32 8 = 0x78123456#32 ∧ rotr 0x80000000#32 31 = 0x00000001#32 ∧
      rotr 0xdeadbeef#32 0 = 0xdeadbeef#32 ∧ rotr 0xdeadbeef#32 32 = 0xdeadbeef#32 ∧
      rotr 0xdeadbeef#32 36 = 0xfdeadbee#32 ∧ rotr 0x0123456789abcdef#64 8 = 0xef0123456789abcd#64 ∧
      rotr 0x00000000deadbeef#64 68 = 0xf00000000deadbee#64 := by decide

theorem test_ch_maj :
    ch 0xff00ff00#32 0x12345678#32 0x9abcdef0#32 = 0x12bc56f0#32 ∧
      ch 0xff00ff00ff00ff00#64 0x0123456789abcdef#64 0xfedcba9876543210#64 = 0x01dc45988954cd10#64 ∧
      maj 0xff00ff00#32 0x0ff00ff0#32 0x00ffff00#32 = 0x0ff0ff00#32 ∧
      maj 0xff00ff00ff00ff00#64 0x0ff00ff00ff00ff0#64 0x00ffff0000ffff00#64 = 0x0ff0ff000ff0ff00#64 := by decide

theorem test_sigma32 :
    [0xffffffff#32, 0x00000001#32, 0x80000000#32, 0x12345678#32].map
        (fun x => [smallSigma desc32.s0 x, smallSigma desc32.s1 x, bigSigma desc32.u0 x, bigSigma desc32.u1 x]) =
      [[0x1fffffff#32, 0x003fffff#32, 0xffffffff#32, 0xffffffff#32],
       [0x02004000#32, 0x0000a000#32, 0x40080400#32, 0x04200080#32],
       [0x11002000#32, 0x00205000#32, 0x20040200#32, 0x02100040#32],
       [0xe7fce6ee#32, 0xa1f78649#32, 0x66146474#32, 0x3561abda#32]] := by decide

theorem test_sigma64 :
    [0xffffffffffffffff#64, 0x1#64, 0x8000000000000000#64, 0x0123456789abcdef#64].map
        (fun x => [smallSigma desc64.s0 x, smallSigma desc64.s1 x, bigSigma desc64.u0 x, bigSigma desc64.u1 x]) =
      [[0x01ffffffffffffff#64, 0x03ffffffffffffff#64, 0xffffffffffffffff#64, 0xffffffffffffffff#64],
       [0x8100000000000000#64, 0x0000200000000008#64, 0x0000001042000000#64, 0x0004400000800000#64],
       [0x4180000000000000#64, 0x0200100000000004#64, 0x0000000821000000#64, 0x0002200000400000#64],
       [0x6f92c77c6c4f1aa1#64, 0x70a3460dbbd4317a#64, 0xb7c57a100c7ec1ab#64, 0x7703112333475567#64]] := by decide

/-! ## Padder, schedule, rounds (95_test_vectors.md 2.2 to 2.4) -/

/-- z, P, N and the recorded bit length. -/
theorem test_padding_table :
    [0, 1, 3, 55, 56, 63, 64, 65, 119, 120].map
        (fun l => (zeroFill desc32 l, paddedLength desc32 l, blockCount desc32 l, bitLength desc32 l)) =
      [(55, 64, 1, 0x0), (54, 64, 1, 0x8), (52, 64, 1, 0x18), (0, 64, 1, 0x1b8), (63, 128, 2, 0x1c0), (56, 128, 2, 0x1f8),
       (55, 128, 2, 0x200), (54, 128, 2, 0x208), (0, 128, 2, 0x3b8), (63, 192, 3, 0x3c0)] ∧
    [0, 1, 3, 111, 112, 127, 128, 129, 239, 240].map
        (fun l => (zeroFill desc64 l, paddedLength desc64 l, blockCount desc64 l, bitLength desc64 l)) =
      [(111, 128, 1, 0x0), (110, 128, 1, 0x8), (108, 128, 1, 0x18), (0, 128, 1, 0x378), (127, 256, 2, 0x380),
       (112, 256, 2, 0x3f8), (111, 256, 2, 0x400), (110, 256, 2, 0x408), (0, 256, 2, 0x778), (127, 384, 3, 0x780)] := by decide

/-- The length field wraps under FAM 0 only (R131). -/
theorem test_length_wraps :
    bitLength desc32 (2 ^ 61) = 0 ∧ bitLength desc32 (2 ^ 61 + 1) = 8 ∧ bitLength desc64 (2 ^ 61) = 2 ^ 64 := by decide

/-- The padded block of "abc" under FAM 0, by the loop of R132. -/
theorem test_pad_abc :
    pad desc32 [0x61#8, 0x62#8, 0x63#8] =
      [0x61#8, 0x62#8, 0x63#8, 0x80#8] ++ List.replicate 52 0x00#8 ++ List.replicate 7 0x00#8 ++ [0x18#8] := by decide +kernel

/-- Schedule words of the "abc" block. -/
theorem test_schedule_abc_f32 :
    let ws := schedule desc32 (pad desc32 [0x61#8, 0x62#8, 0x63#8])
    [0, 1, 15, 16, 17, 18, 19, 63].map (fun i => ws.getD i 0#32) =
      [0x61626380#32, 0#32, 0x00000018#32, 0x61626380#32, 0x000f0000#32, 0x7da86405#32, 0x600003c6#32, 0x12b1edeb#32] := by
  decide +kernel

theorem test_schedule_abc_f64 :
    let ws := schedule desc64 (pad desc64 [0x61#8, 0x62#8, 0x63#8])
    [0, 1, 15, 16, 17, 18, 19, 79].map (fun i => ws.getD i 0#64) =
      [0x6162638000000000#64, 0#64, 0x18#64, 0x6162638000000000#64, 0x00030000000000c0#64, 0x0a9699a24c700003#64,
       0x00000c0060000603#64, 0x92aeeed1a7bcf7d2#64] := by
  decide +kernel

/-- The working registers after round 0, from IV and W[0] of the "abc" block. -/
theorem test_round0 :
    roundStep desc32 (desc32.k.getD 0 0#32) 0x61626380#32 desc32.iv =
        ⟨0x5d6aebcd#32, 0x6a09e667#32, 0xbb67ae85#32, 0x3c6ef372#32, 0xfa2a4622#32, 0x510e527f#32, 0x9b05688c#32,
          0x1f83d9ab#32⟩ ∧
      roundStep desc64 (desc64.k.getD 0 0#64) 0x6162638000000000#64 desc64.iv =
        ⟨0xf6afceb8bcfcddf5#64, 0x6a09e667f3bcc908#64, 0xbb67ae8584caa73b#64, 0x3c6ef372fe94f82b#64, 0x58cb02347ab51f91#64,
          0x510e527fade682d1#64, 0x9b05688c2b3e6c1f#64, 0x1f83d9abfb41bd6b#64⟩ := by decide

/-- The fold of the "abc" block under FAM 0 (R177). -/
theorem test_fold :
    foldInto desc32.iv ⟨0x506e3058#32, 0xd39a2165#32, 0x04d24d6c#32, 0xb85e2ce9#32, 0x5ef50f24#32, 0xfb121210#32, 0x948d25b6#32,
        0x961f4894#32⟩ = k2.map (ofStore 32) := by decide

/-- S448 (95_test_vectors.md 1.3), 56 bytes: two blocks under FAM 0. -/
def s448 : List Byte := (List.range 14).flatMap fun i => (List.range 4).map fun j => BitVec.ofNat 8 (0x61 + i + j)

theorem test_sha_two_blocks_f32 :
    sha .f32 s448 = ⟨0x248d6a61#32, 0xd20638b8#32, 0xe5c02693#32, 0x0c3e6039#32, 0xa33ce459#32, 0x64ff2167#32, 0xf6ecedd4#32,
      0x19db06c1#32⟩ := by
  decide +kernel

/-- S896 (95_test_vectors.md 1.3), 112 bytes: two blocks under FAM 1, where the defect of 90_conflicts.md C5 would show. -/
def s896 : List Byte := (List.range 14).flatMap fun i => (List.range 8).map fun j => BitVec.ofNat 8 (0x61 + i + j)

theorem test_sha_two_blocks_f64 :
    sha .f64 s896 = ⟨0x8e959b75dae313da#64, 0x8cf4f72814fc143f#64, 0x8f7779c6eb9f7fa1#64, 0x7299aeadb6889018#64,
      0x501d289e4900f7e4#64, 0x331b99dec4b5433a#64, 0xc7d329eeb6dd2654#64, 0x5e96e55b874be909#64⟩ := by
  decide +kernel

/-! ## Witnesses: states and operands that meet the hypotheses of each statement, clause by clause -/

/-- DecodeOfEncode: well-formed terms of the rows with operands, at the ends of their ranges. -/
theorem witness_DecodeOfEncode :
    (Instr.rdDigest 15).wf = true ∧ (Instr.wrDigest 0 0xffffffff#32).wf = true ∧
      (Instr.wrm 0xffffffffffffffff 0xffffffff#32).wf = true ∧ (Instr.illegalCmd 0xffffffff#32).wf = true ∧
      (Instr.badAccess .wr 0xff#8).wf = true := by decide

/-- ExactlyThreeLegalCommands: each legal word; two illegal words, beside the legal ones. -/
theorem witness_ExactlyThreeLegalCommands :
    legalCommand 0x00000001#32 = true ∧ legalCommand 0x00000011#32 = true ∧ legalCommand 0x00000002#32 = true ∧
      legalCommand 0x00000000#32 = false ∧ legalCommand 0x00000012#32 = false := by decide

/-- BusDecodesUnmappedOffsets: an offset of each kind, and the mapped offsets beside them. -/
theorem witness_BusDecodesUnmappedOffsets :
    [0x01#8, 0x10#8, 0x3C#8, 0x3F#8, 0x80#8, 0xFF#8].all (fun o => decode (.bus (tdOf .rd false o) 0 0#32) == .badAccess .rd o)
        = true ∧
      [0x00#8, 0x0C#8, 0x40#8, 0x7C#8].all (fun o => decode (.bus (tdOf .rd false o) 0 0#32) != .badAccess .rd o) = true := by
  decide

/-- StepRunsTheDecodedTransaction: a state for its second and its third clause. -/
theorem witness_StepRunsTheDecodedTransaction :
    (∃ s : State, s.program = [.txn (.cmd 2#32)] ∧ s.turns = [.host, .core]) ∧
      ∃ s : State, s.program = [.txn (.cmd 2#32)] ∧ s.turns = [] ∧ s.busy = false :=
  ⟨⟨{ State.reset with program := [.txn (.cmd 2#32)], turns := [.host, .core] }, rfl, rfl⟩,
   { State.reset with program := [.txn (.cmd 2#32)] }, rfl, rfl, rfl⟩

/-- HashIsAcceptedOrOutOfRange, WrCmdSelectsTheCommand, DigestIsOfTheAcceptedMessage: LEN at MSG_BYTES and one above. -/
theorem witness_HashIsAcceptedOrOutOfRange :
    (withLen 256#64).busy = false ∧ (withLen 256#64).len.toNat = (withLen 256#64).msgBytes ∧
      (withLen 257#64).busy = false ∧ (withLen 257#64).len.toNat = (withLen 257#64).msgBytes + 1 ∧
      exec .hash256 (withLen 256#64) = .next ((withLen 256#64).accepted .f32) ∧
      exec .hash512 (withLen 256#64) = .next ((withLen 256#64).accepted .f64) ∧
      exec .hash256 (withLen 257#64) = .next ((withLen 257#64).raiseError .lenRange) ∧
      exec .hash512 (withLen 257#64) = .next ((withLen 257#64).raiseError .lenRange) :=
  ⟨by decide, by decide, by decide, by decide, rfl, rfl, rfl, rfl⟩

/-- WrCmdSelectsTheCommand: each clause. -/
theorem witness_WrCmdSelectsTheCommand :
    exec (.wrCmd 0x2#32) (hashing .f32 3#64) = .next ((hashing .f32 3#64).raiseError .busyWrite) ∧
      exec (.wrCmd 0x2#32) (hashed .f64 k4) = .next (hashed .f64 k4).clearCommand ∧
      exec (.wrCmd 0x12#32) (hashed .f64 k4) = .next ((hashed .f64 k4).raiseError .illegalCmd) ∧
      exec (.wrCmd 0x1#32) (withLen 257#64) = .next ((withLen 257#64).raiseError .lenRange) ∧
      exec (.wrCmd 0x11#32) (withLen 256#64) = .next ((withLen 256#64).accepted .f64) :=
  ⟨rfl, rfl, rfl, rfl, rfl⟩

/-- ClearWipesDigestAndError, IllegalCommandSetsErrOnly: an idle state with a digest; a busy state; an illegal word. -/
theorem witness_ClearAndIllegal :
    (hashed .f64 k4).busy = false ∧ (hashing .f64 3#64).busy = true ∧ 0x3#32 ≠ 0x1#32 ∧ 0x3#32 ≠ 0x11#32 ∧ 0x3#32 ≠ 0x2#32 ∧
      exec .clear (hashed .f64 k4) = .next (hashed .f64 k4).clearCommand ∧
      exec (.illegalCmd 0x3#32) (hashed .f64 k4) = .next ((hashed .f64 k4).raiseError .illegalCmd) ∧
      exec (.illegalCmd 0x3#32) (hashing .f64 3#64) = .next ((hashing .f64 3#64).raiseError .busyWrite) :=
  ⟨rfl, rfl, by decide, by decide, by decide, rfl, rfl, rfl⟩

/-- WritesWhileBusyAreDropped: a busy state, and the last word of MSG. -/
theorem witness_WritesWhileBusyAreDropped :
    (hashing .f32 3#64).busy = true ∧ 252 % 4 = 0 ∧ 252 + 4 ≤ (hashing .f32 3#64).msgBytes ∧
      exec (.wrm 252 1#32) (hashing .f32 3#64) = .next ((hashing .f32 3#64).raiseError .busyWrite) :=
  ⟨rfl, by decide, by decide, rfl⟩

/-- WrLenLoStoresTheLowHalf, WrLenHiStoresTheHighHalf: idle and busy. -/
theorem witness_WrLen :
    exec (.wrLenLo 0xffffffff#32) State.reset = .next { State.reset with lenLo := 0xffffffff#32 } ∧
      exec (.wrLenHi 0xffffffff#32) State.reset = .next { State.reset with lenHi := 0xffffffff#32 } ∧
      exec (.wrLenLo 0#32) (hashing .f32 3#64) = .next ((hashing .f32 3#64).raiseError .busyWrite) ∧
      exec (.wrLenHi 0#32) (hashing .f32 3#64) = .next ((hashing .f32 3#64).raiseError .busyWrite) :=
  ⟨rfl, rfl, rfl, rfl⟩

/-- RdDigestIsGated: each clause, at j = 7 and 8 under FAM 0 and j = 14 and 15 under FAM 1. -/
theorem witness_RdDigestIsGated :
    (withLen 3#64).dvalid = false ∧ (withLen 3#64).digestWord 0 = 0#32 ∧
      (hashed .f32 k2).dvalid = true ∧ (hashed .f32 k2).fam = .f32 ∧
      (hashed .f32 k2).digestWord 7 = 0xf20015ad#32 ∧ (hashed .f32 k2).digestWord 8 = 0#32 ∧
      (hashed .f64 k4).dvalid = true ∧ (hashed .f64 k4).fam = .f64 ∧
      (hashed .f64 k4).digestWord 14 = 0x2a9ac94f#32 ∧ (hashed .f64 k4).digestWord 15 = 0xa54ca49f#32 := by decide

/-- DigestWordPacksFourBytes: the last word of each family. -/
theorem witness_DigestWordPacksFourBytes :
    (hashed .f32 k2).dvalid = true ∧ 4 * (7 : Fin 16).val < 8 * (descOf (hashed .f32 k2).fam).wordBytes ∧
      (hashed .f64 k4).dvalid = true ∧ 4 * (15 : Fin 16).val < 8 * (descOf (hashed .f64 k4).fam).wordBytes := by decide

/-- WrmStoresFourBytes, RdmReturnsFourBytes, BadAccessesAreHarmless: misaligned, out of range, the last word; busy and idle. -/
theorem witness_MsgAccess :
    Memory.wf (hashing .f32 3#64).mem = true ∧
      2 % 4 ≠ 0 ∧ State.reset.msgBytes < 256 + 4 ∧
      252 % 4 = 0 ∧ 252 + 4 ≤ State.reset.msgBytes ∧
      exec (.wrm 2 1#32) State.reset = .next (State.reset.raiseError .badAccess) ∧
      exec (.wrm 256 1#32) State.reset = .next (State.reset.raiseError .badAccess) ∧
      exec (.wrm 252 1#32) State.reset = .next { State.reset with mem := [(255, 1#8)] } ∧
      exec (.rdm 2) State.reset = .next ((State.reset.raiseError .badAccess).returnRead 0#32) ∧
      exec (.rdm 256) State.reset = .next ((State.reset.raiseError .badAccess).returnRead 0#32) ∧
      exec (.rdm 252) (hashing .f32 3#64) = .next ((hashing .f32 3#64).returnRead 0#32) :=
  ⟨by decide, by decide, by decide, by decide, by decide, rfl, rfl, rfl, rfl, rfl, rfl⟩

/-- WrmThenRdmReadsBack. -/
theorem witness_WrmThenRdmReadsBack :
    Memory.wf State.reset.mem = true ∧ State.reset.busy = false ∧ 252 % 4 = 0 ∧
      252 + 4 ≤ State.reset.msgBytes ∧
      exec (.wrm 252 0x00000001#32) State.reset = .next { State.reset with mem := [(255, 1#8)] } :=
  ⟨by decide, by decide, by decide, by decide, rfl⟩

/-- BadAccessesAreHarmless: an offset of each kind, at the ends of its range. -/
theorem witness_BadAccessesAreHarmless :
    (0x01#8).toNat % 4 ≠ 0 ∧ 0x10 ≤ (0x10#8).toNat ∧ (0x3F#8).toNat ≤ 0x3F ∧ 0x80 ≤ (0x80#8).toNat ∧
      exec (decode (.bus (tdOf .rd false 0x10#8) 0 0#32)) State.reset =
        .next ((State.reset.raiseError .badAccess).returnRead 0#32) ∧
      exec (decode (.bus (tdOf .wr false 0x80#8) 0 0#32)) State.reset = .next (State.reset.raiseError .badAccess) :=
  ⟨by decide, by decide, by decide, by decide, rfl, rfl⟩

/-- ErrorsArePrecise: a transaction that leaves a new code, a write and a read. -/
theorem witness_ErrorsArePrecise :
    exec (.wrStatus 0#32) (hashed .f32 k2) = .next ((hashed .f32 k2).raiseError .badAccess) ∧
      exec (.rdm 1) (hashed .f32 k2) = .next (((hashed .f32 k2).raiseError .badAccess).returnRead 0#32) ∧
      ErrCode.badAccess ≠ .none ∧ ErrCode.badAccess ≠ (hashed .f32 k2).err :=
  ⟨rfl, rfl, by decide, by decide⟩

/-- OnlyHashAndClearClearErr: a HASH and a CLEAR that clear a code. -/
theorem witness_OnlyHashAndClearClearErr :
    ((hashed .f32 k2).raiseError .badAccess).err ≠ .none ∧
      exec .hash512 ((hashed .f32 k2).raiseError .badAccess) = .next (((hashed .f32 k2).raiseError .badAccess).accepted .f64) ∧
      (((hashed .f32 k2).raiseError .badAccess).accepted .f64).err = .none ∧
      exec .clear ((hashed .f32 k2).raiseError .badAccess) = .next ((hashed .f32 k2).raiseError .badAccess).clearCommand ∧
      ((hashed .f32 k2).raiseError .badAccess).clearCommand.err = .none :=
  ⟨by decide, rfl, rfl, rfl, rfl⟩

/-- NothingDisturbsARunningHash. -/
theorem witness_NothingDisturbsARunningHash :
    (hashing .f64 3#64).busy = true ∧
      exec (.wrLenLo 5#32) (hashing .f64 3#64) = .next ((hashing .f64 3#64).raiseError .busyWrite) := ⟨rfl, rfl⟩

/-- OnlyWrmWritesMsg: a step that changes MSG. -/
theorem witness_OnlyWrmWritesMsg :
    ∃ s t : State, step s = .next t ∧ t.mem ≠ s.mem :=
  ⟨State.reset.withHostWord (.bus 0x300#10 0 0x61000000#32), { State.reset with mem := [(0, 0x61#8)] }, rfl, by decide⟩

/-- RotrMovesBits, ChooseAndMajorityBits: the top bit of each width. -/
theorem witness_BitIndex : (31 < 32 ∧ 63 < 64) ∧ (rotr 0x80000001#32 1).getLsbD 31 = true := by decide

/-- PaddedBytesAreTheLoops: the last byte of each case for "abc" under FAM 0, and the last byte under FAM 1. -/
theorem witness_PaddedBytesAreTheLoops :
    63 < paddedLength desc32 3 ∧ paddedLength desc32 3 - desc32.lenBytes = 56 ∧
      [2, 3, 4, 55, 56].map (paddedByte desc32 (fun i => [0x61#8, 0x62#8, 0x63#8].getD i 0#8) 3) =
        [0x63#8, 0x80#8, 0x00#8, 0x00#8, 0x00#8] ∧
      paddedByte desc32 (fun i => [0x61#8, 0x62#8, 0x63#8].getD i 0#8) 3 63 = 0x18#8 ∧
      127 < paddedLength desc64 3 ∧ paddedByte desc64 (fun i => [0x61#8, 0x62#8, 0x63#8].getD i 0#8) 3 127 = 0x18#8 := by decide

/-- ScheduleWords: the last decoded word, the first and the last expanded one, in each family. -/
theorem witness_ScheduleWords :
    15 < 16 ∧ 16 < (descOf .f32).rounds ∧ 63 < (descOf .f32).rounds ∧ 16 < (descOf .f64).rounds ∧ 79 < (descOf .f64).rounds := by
  decide

/-- HostWordsAreScheduleWords: the last word of block 0, whose last byte is the last of the message. -/
theorem witness_HostWordsAreScheduleWords : 15 < 16 ∧ 64 * 0 + 4 * 15 + 4 ≤ 64 ∧ 128 * 0 + 8 * 15 + 8 ≤ 128 := by decide

/-- RoundAndFold, DigestBytes: the last word, and its last byte, of each family. -/
theorem witness_DigestBytes : 7 < 8 ∧ 3 < (descOf .f32).wordBytes ∧ 7 < (descOf .f64).wordBytes := by decide

/-- SequenceThreadsBlocks: the ends of the range of b, for a message of two blocks. -/
theorem witness_SequenceThreadsBlocks :
    0 ≤ blockCount (descOf .f32) 56 ∧ 2 ≤ blockCount (descOf .f32) 56 ∧ ¬ 3 ≤ blockCount (descOf .f32) 56 ∧
      1 ≤ blockCount (descOf .f64) 111 ∧ ¬ 2 ≤ blockCount (descOf .f64) 111 := by decide

/-- CompletionComputesSha: no completion while BUSY = 0; the core's turn while BUSY = 1 (its digest: test_completion_abc_f32). -/
theorem witness_CompletionComputesSha :
    (hashed .f32 k2).busy = false ∧ { hashed .f32 k2 with turns := [.core] }.nextMove.1 = .idle ∧
      (hashing .f32 3#64).busy = true ∧ { hashing .f32 3#64 with turns := [.core, .host] }.nextMove.1 = .complete := by decide

/-- DigestIsOfTheAcceptedMessage: an accepted HASH, with transactions before its completion that would disturb it. -/
theorem witness_DigestIsOfTheAcceptedMessage :
    (hashed .f32 k2).busy = false ∧ (hashed .f32 k2).len.toNat ≤ (hashed .f32 k2).msgBytes ∧
      exec .hash256 (hashed .f32 k2) = .next ((hashed .f32 k2).accepted .f32) ∧
      (((hashed .f32 k2).accepted .f32).performAll [.bus 0x208#10 0 5#32, .bus 0x300#10 0 0#32]).statusWord = 0x31#32 :=
  ⟨rfl, by decide, rfl, by decide⟩

/-- DigestStaysReadable: a valid digest, and transactions none of which is a legal command. -/
theorem witness_DigestStaysReadable :
    (hashed .f64 k4).busy = false ∧ (hashed .f64 k4).dvalid = true ∧
      [HostWord.bus 0x300#10 0 0#32, .bus 0x200#10 0 0#32, .cmd 0x12#32].map decode =
        [.wrm 0 0#32, .wrCmd 0#32, .illegalCmd 0x12#32] ∧ legalCommand 0#32 = false := by decide

/-- BytesBeyondLenDoNotMatter: two memories that differ from address LEN_L on. -/
theorem witness_BytesBeyondLenDoNotMatter :
    ∃ s s' : State, s'.engine.famL = s.engine.famL ∧ s'.engine.lenL = s.engine.lenL ∧
      (∀ a, a < s.engine.lenL.toNat → s'.mem.read a = s.mem.read a) ∧ s'.mem.read 3 ≠ s.mem.read 3 :=
  ⟨hashing .f32 3#64, { hashing .f32 3#64 with mem := [(0, 0x61#8), (1, 0x62#8), (2, 0x63#8), (3, 0xff#8)] }, rfl, rfl,
    by decide, by decide⟩

/-- ResetAbandonsTheHash: a reset event while BUSY = 1 and one while BUSY = 0. -/
theorem witness_ResetAbandonsTheHash :
    { hashing .f32 3#64 with turns := [.reset, .core] }.turns = [.reset, .core] ∧
      { hashing .f32 3#64 with turns := [.reset, .core] }.busy = true ∧
      { hashed .f64 k4 with turns := [.reset] }.turns = [.reset] ∧ { hashed .f64 k4 with turns := [.reset] }.busy = false := by
  decide

/-- LaunchMeetsInvariant: a memory whose last byte is listed, in the smallest and in a larger MSG. -/
theorem witness_LaunchMeetsInvariant :
    Memory.wf [(3, 1#8)] = true ∧ Memory.below (4 * ((0 : Fin (2 ^ 62)).val + 1)) [(3, 1#8)] = true ∧
      Memory.wf [(0, 7#8), (255, 1#8)] = true ∧ Memory.below (4 * ((63 : Fin (2 ^ 62)).val + 1)) [(0, 7#8), (255, 1#8)] = true := by
  decide

/-- StepKeepsInvariant: a busy state that meets the invariant, and its step. -/
theorem witness_StepKeepsInvariant :
    ∃ s t : State, s.Inv ∧ s.busy = true ∧ step s = .next t :=
  ⟨hashing .f64 3#64, _,
    { memCanonical := by decide
      memInRange := by decide
      busyNotValid := fun _ => rfl
      busyAtLoad := fun _ => rfl
      idleAtRest := fun h => nomatch h
      lengthInRange := fun _ => by decide
      lengthLatched := fun _ => by decide
      familyLatched := fun _ => rfl
      narrowAcc := fun h => nomatch h }, rfl, rfl⟩

/-- EveryHashEnds, WaitEnds: a HASH in progress under a schedule that puts the core last, the host waiting. -/
theorem witness_EveryHashEnds :
    { hashing .f32 0#64 with program := [.wait], turns := [.host, .host] }.busy = true ∧
      ({ hashing .f32 0#64 with program := [.wait], turns := [.host, .host] }.after 2).reads = [0x01#32, 0x01#32] ∧
      ({ hashing .f32 0#64 with program := [.wait], turns := [.host, .host] }.after 3).busy = false := by decide

/-- SetLenSetsLen: the largest length. -/
theorem witness_SetLenSetsLen :
    ∃ s : State, s.program = (Pseudo.setLen 0xffffffffffffffff#64).expand ++ [.wait] ∧ s.turns = [] ∧ s.busy = false :=
  ⟨{ State.reset with program := (Pseudo.setLen 0xffffffffffffffff#64).expand ++ [.wait] }, rfl, rfl, rfl⟩

/-- The reset state before LOADMSG of a string of two words at `a`. -/
def loading (a : Nat) : State :=
  { State.reset with program := (Pseudo.loadMsg a [1#8, 2#8, 3#8, 4#8, 5#8]).expand ++ [.wait] }

/-- LoadMsgStoresTheString: two words at the end of MSG; the second past the end; both past it (across 2^64); misaligned. -/
theorem witness_LoadMsgStoresTheString :
    [248, 252, 2 ^ 64 - 4, 1].all (fun a =>
        Memory.wf (loading a).mem && !(loading a).busy && (loading a).turns == []) = true ∧
      248 + 8 ≤ (loading 248).msgBytes ∧ (loading 252).msgBytes < 252 + 8 ∧
      [248, 252, 2 ^ 64 - 4, 1].map (fun a => a % 4) = [0, 0, 0, 1] := by decide

/-- LoadMsgStoresTheString, n = 0: the empty string, at an aligned address in range, past the end and past 2^64, and at a
misaligned one: no line, so no step and no error. -/
theorem witness_LoadMsgStoresTheString_empty :
    [0, 256, 2 ^ 64, 1].all (fun a => (Pseudo.loadMsg a []).expand.isEmpty) = true ∧
      (([] : List Byte).length + 3) / 4 = 0 ∧ [0, 256, 2 ^ 64, 1].map (fun a => a % 4) = [0, 0, 0, 1] ∧
      ∃ s : State, Memory.wf s.mem = true ∧ s.program = (Pseudo.loadMsg 1 []).expand ++ [.wait] ∧ s.turns = [] ∧
        s.busy = false ∧ (s.after 0).err = .none :=
  ⟨by decide, by decide, by decide, { State.reset with program := [.wait] }, by decide, rfl, rfl, rfl, rfl⟩

/-- The STATUS and MSG each of the strings of two words leaves (R88, R58, R213). -/
theorem test_loadMsg :
    [248, 252, 2 ^ 64 - 4, 1].map (fun a => (((loading a).after 2).statusWord, ((loading a).after 2).mem)) =
      [(0x00#32, [(248, 1#8), (249, 2#8), (250, 3#8), (251, 4#8), (252, 5#8)]),
       (0x40#32, [(252, 1#8), (253, 2#8), (254, 3#8), (255, 4#8)]), (0x40#32, []), (0x40#32, [])] := by decide

end Sys2Proof.Tests
end

section
/-!
PROOFS. The invariant of the machine (10_state.md R24, R27, R34, 20_memory.md R50, R56): every launch meets it and every step
keeps it; and what the registers read right after power-on.
-/

namespace Sys2Proof.Machine

variable {w : Nat}

/-! ## The accumulators hold w-bit words (R27) -/

/-- A 32-bit word leaves the upper half of its storage zero (R27). -/
theorem upperHalf_toStore (x : BitVec 32) : (toStore x).extractLsb' 32 32 = 0#32 := by
  apply BitVec.eq_of_getLsbD_eq
  intro i _
  simp [toStore]

theorem Octet.narrow_map_toStore (o : Octet 32) : (o.map toStore).narrow := fun k _ => by
  rw [Octet.word_map, upperHalf_toStore]

/-- The accumulators are `w`-bit words put into storage. -/
def Engine.AccStored (w : Nat) (e : Engine) : Prop := ∃ o : Octet w, e.acc = o.map toStore

/-- A micro-step keeps the accumulators `w`-bit words: only the fold writes them, and it writes such words. -/
theorem Engine.AccStored.advance {e : Engine} (h : e.AccStored w) (D : Desc w) (msg : Nat → Byte) :
    (e.advance D msg).AccStored w := by
  cases hp : e.phase with
  | idle =>
    rw [show e.advance D msg = e from Engine.run_idle D msg 1 hp]
    exact h
  | load =>
    rw [Engine.advance_load hp]
    exact h
  | expand =>
    rw [Engine.advance_expand hp]
    exact h
  | round =>
    rw [Engine.advance_round hp]
    exact h
  | fold =>
    rw [Engine.advance_fold hp]
    exact ⟨_, rfl⟩

theorem Engine.AccStored.run {e : Engine} (h : e.AccStored w) (D : Desc w) (msg : Nat → Byte) (n : Nat) :
    (e.run D msg n).AccStored w := by
  induction n with
  | zero => exact h
  | succ n ih =>
    rw [Engine.run_succ]
    exact ih.advance D msg

/-- A HASH leaves words of the latched family's width: it starts from IV_F, and every micro-step keeps the width. -/
theorem Engine.accStored_hash (msg : Nat → Byte) (e : Engine) : (e.hash msg).AccStored e.famL.width :=
  Engine.AccStored.run ⟨(descOf e.famL).iv, rfl⟩ _ _ _

/-- The digest of a 32-bit HASH stands in the low halves of the accumulators (R27). -/
theorem Engine.narrow_acc_hash {e : Engine} (h : e.famL = .f32) (msg : Nat → Byte) : (e.hash msg).acc.narrow := by
  have hst := e.accStored_hash msg
  rw [h] at hst
  obtain ⟨o, ho⟩ := hst
  rw [ho]
  exact o.narrow_map_toStore

/-! ## The invariant -/

/-- With BUSY = 0 the clauses about a HASH in progress say nothing. -/
theorem State.Inv.of_idle {s : State} (hb : s.busy = false) (hmem : s.mem.wf = true)
    (hrange : s.mem.below s.msgBytes = true) (hphase : s.engine.phase = .idle)
    (hnarrow : s.dvalid = true → s.fam = .f32 → s.engine.acc.narrow) : s.Inv :=
  have hne : s.busy ≠ true := by simp [hb]
  { memCanonical := hmem
    memInRange := hrange
    busyNotValid := fun h => absurd h hne
    busyAtLoad := fun h => absurd h hne
    idleAtRest := fun _ => hphase
    lengthInRange := fun h => absurd h hne
    lengthLatched := fun h => absurd h hne
    familyLatched := fun h => absurd h hne
    narrowAcc := hnarrow }

/-- The invariant does not speak of ERR, the host's program, the turns and the reads. -/
theorem State.Inv.withErrProgramTurnsReads {s : State} (h : s.Inv) (err : ErrCode) (program : List HostLine)
    (turns : List Turn) (reads : List Word32) :
    { s with err := err, program := program, turns := turns, reads := reads : State }.Inv where
  memCanonical := h.memCanonical
  memInRange := h.memInRange
  busyNotValid := h.busyNotValid
  busyAtLoad := h.busyAtLoad
  idleAtRest := h.idleAtRest
  lengthInRange := h.lengthInRange
  lengthLatched := h.lengthLatched
  familyLatched := h.familyLatched
  narrowAcc := h.narrowAcc

/-- A launch with a canonical memory inside MSG meets the invariant (R34). -/
theorem State.inv_launch {lastWord : Fin (2 ^ 62)} {mem : Memory} (program : List HostLine) (turns : List Turn)
    (hmem : mem.wf = true) (hrange : mem.below (4 * (lastWord.val + 1)) = true) :
    (State.launch lastWord mem program turns).Inv :=
  .of_idle rfl hmem hrange rfl nofun

/-! ## What can happen in a step keeps the invariant -/

/-- An accepted HASH stands at LOAD with the family and the length latched (R202). -/
theorem State.Inv.accepted {s : State} (h : s.Inv) (F : Family) (hl : s.len.toNat ≤ s.msgBytes) : (s.accepted F).Inv where
  memCanonical := h.memCanonical
  memInRange := h.memInRange
  busyNotValid := fun _ => rfl
  busyAtLoad := fun _ => rfl
  idleAtRest := nofun
  lengthInRange := fun _ => hl
  lengthLatched := fun _ => rfl
  familyLatched := fun _ => rfl
  narrowAcc := nofun

/-- A transaction keeps the invariant: reads and errors leave its fields alone, and all else needs BUSY = 0. -/
theorem State.Inv.of_effect {s t : State} (h : s.Inv) (he : Effect s t) : t.Inv := by
  cases he with
  | read v => exact h.withErrProgramTurnsReads s.err s.program s.turns (v :: s.reads)
  | error c _ => exact h.withErrProgramTurnsReads c s.program s.turns s.reads
  | badRead => exact h.withErrProgramTurnsReads .badAccess s.program s.turns (0x00000000#32 :: s.reads)
  | lenLo v hb => exact .of_idle hb h.memCanonical h.memInRange (h.idleAtRest hb) h.narrowAcc
  | lenHi v hb => exact .of_idle hb h.memCanonical h.memInRange (h.idleAtRest hb) h.narrowAcc
  | msg a v hb ha =>
    exact .of_idle hb (Memory.wf_writeWord h.memCanonical a v) (Memory.below_writeWord h.memInRange v ha)
      (h.idleAtRest hb) h.narrowAcc
  | accept F _ hl => exact h.accepted F hl
  | clear hb => exact .of_idle hb h.memCanonical h.memInRange (h.idleAtRest hb) nofun

/-- The completion of a HASH in progress keeps the invariant: the family it hashes for is STATUS.FAM (R203). -/
theorem State.Inv.complete {s : State} (h : s.Inv) (hb : s.busy = true) : s.complete.Inv :=
  .of_idle rfl h.memCanonical h.memInRange rfl fun _ hf =>
    Engine.narrow_acc_hash ((h.familyLatched hb).trans hf) (Memory.read s.mem)

/-- The reset event keeps the invariant: MSG stays as it is (R270). -/
theorem State.Inv.resetEvent {s : State} (h : s.Inv) : s.resetEvent.Inv :=
  .of_idle rfl h.memCanonical h.memInRange rfl nofun

theorem State.Inv.nextMove {s : State} (h : s.Inv) : s.nextMove.2.Inv := by
  rw [s.nextMove_state]
  exact h.withErrProgramTurnsReads s.err _ _ s.reads

theorem State.nextMove_busy (s : State) : s.nextMove.2.busy = s.busy := by rw [s.nextMove_state]

/-! ## What is read while nothing is set -/

/-- STATUS reads 0 when each of its fields does (R24, R206). -/
theorem State.statusWord_eq_zero {s : State} (he : s.err = .none) (hf : s.fam = .f32) (hv : s.dvalid = false)
    (hb : s.busy = false) : s.statusWord = 0x00000000#32 := by
  rw [State.statusWord, he, hf, hv, hb]
  decide

/-- RD DIGEST[j] returns 0 while DVALID = 0 (R208). -/
theorem exec_rdDigest_of_not_valid {s : State} (h : s.dvalid = false) (j : Fin 16) :
    exec (.rdDigest j) s = .next (s.returnRead 0x00000000#32) := by
  rw [← State.digestWord_of_not_valid h j]
  rfl

/-! ## The obligations -/

/-- Settles O51, by the kinds of step: a transaction, the completion, the reset event, or none. -/
theorem stepKeepsInvariant : Obligations.StepKeepsInvariant := by
  intro s t h hst
  have hm : s.nextMove.2.Inv := h.nextMove
  rcases step_cases s with ⟨word, -, e⟩ | ⟨hc, e⟩ | ⟨-, e⟩ | ⟨-, e⟩ <;> rw [e] at hst
  · obtain ⟨t', e', he⟩ := exec_effect (decode word) s.nextMove.2
    cases e'.symm.trans hst
    exact hm.of_effect he
  · cases hst
    exact hm.complete (s.nextMove_busy.trans (State.busy_of_nextMove_complete hc))
  · cases hst
    exact hm.resetEvent
  · cases hst
    exact hm

/-- Settles O48: each field stands as launched, and DIGEST reads 0 because DVALID = 0. -/
theorem resetLeaves : Obligations.ResetLeaves := by
  intro lastWord mem program turns s
  exact ⟨State.statusWord_eq_zero rfl rfl rfl rfl, rfl, rfl, rfl, rfl, rfl, rfl, rfl, rfl,
    fun j => exec_rdDigest_of_not_valid rfl j, rfl⟩

/-- Settles O50: a launch meets the invariant, and `State.reset` is the launch with an empty memory. -/
theorem launchMeetsInvariant : Obligations.LaunchMeetsInvariant :=
  ⟨State.inv_launch [] [] rfl rfl, fun _ _ program turns hmem hrange => State.inv_launch program turns hmem hrange⟩

end Sys2Proof.Machine
end

section
/-!
PROOFS. What a transaction can change, told by its instruction (44_commands.md R201 to R216, 70_reset_and_hazards.md R273), and
what a list of transactions keeps: MSG is written by WRM alone, a digest is lost to a legal command alone, and a HASH in
progress loses nothing.
-/

namespace Sys2Proof

/-- The transactions that present a legal command word (30_encoding.md R84, 44_commands.md R201). -/
def Instr.isLegalCommand : Instr → Bool
  | .hash256 => true
  | .hash512 => true
  | .clear => true
  | .wrCmd v => legalCommand v
  | _ => false

end Sys2Proof

namespace Sys2Proof.Machine

/-! ## States that differ in ERR and the reads -/

theorem SameButErrAndReads.refl (s : State) : SameButErrAndReads s s := rfl

theorem SameButErrAndReads.trans {s t u : State} (hst : SameButErrAndReads s t) (htu : SameButErrAndReads t u) :
    SameButErrAndReads s u := by
  unfold SameButErrAndReads at *
  rw [hst] at htu
  exact htu

theorem SameButErrAndReads.busy_eq {s t : State} (h : SameButErrAndReads s t) : t.busy = s.busy := by rw [h]

theorem SameButErrAndReads.mem_eq {s t : State} (h : SameButErrAndReads s t) : t.mem = s.mem := by rw [h]

theorem SameButErrAndReads.badAccess (s : State) (d : Dir) : SameButErrAndReads s (s.badAccess d) := by
  cases d <;> rfl

/-! ## What a transaction can change -/

/-- What the transaction `i` can make of the state `s`. It refines `Effect` by the instruction that has the effect. -/
inductive Change (s : State) : Instr → State → Prop where
  /-- A read returned a value, or an error was raised, or both. -/
  | quiet {i : Instr} {t : State} (h : SameButErrAndReads s t) : Change s i t
  /-- LEN_LO was written (R207). -/
  | lenLo (v : Word32) (hb : s.busy = false) : Change s (.wrLenLo v) { s with lenLo := v }
  /-- LEN_HI was written (R214). -/
  | lenHi (v : Word32) (hb : s.busy = false) : Change s (.wrLenHi v) { s with lenHi := v }
  /-- A word of MSG was written (R211). -/
  | msg (a : Nat) (v : Word32) (hb : s.busy = false) : Change s (.wrm a v) { s with mem := s.mem.writeWord a v }
  /-- A HASH was accepted (R202). -/
  | accept {i : Instr} (hi : i.isLegalCommand = true) (F : Family) (hb : s.busy = false) : Change s i (s.accepted F)
  /-- CLEAR was performed (R204). -/
  | clear {i : Instr} (hi : i.isLegalCommand = true) (hb : s.busy = false) : Change s i s.clearCommand

/-- A write that is dropped raises BUSY_WRITE only (R273). -/
theorem Change.of_write {s : State} {i : Instr} {f : State → State} (h : s.busy = false → Change s i (f s)) :
    Change s i (s.writeUnlessBusy f) := by
  rcases s.writeUnlessBusy_cases f with ⟨-, e⟩ | ⟨hb, e⟩ <;> rw [e]
  · exact .quiet rfl
  · exact h hb

/-- A HASH word is accepted or raises LEN_RANGE only (R202). -/
theorem Change.of_hashAccept {s : State} {i : Instr} (hi : i.isLegalCommand = true) (F : Family) (hb : s.busy = false) :
    Change s i (s.hashAccept F) := by
  rcases s.hashAccept_cases F with ⟨-, e⟩ | ⟨-, e⟩ <;> rw [e]
  · exact .quiet rfl
  · exact .accept hi F hb

/-- Every transaction goes on, with one of the changes above. -/
theorem exec_change (i : Instr) (s : State) : ∃ t, exec i s = .next t ∧ Change s i t := by
  cases i with
  | hash256 => exact ⟨_, rfl, .of_write fun hb => .of_hashAccept rfl _ hb⟩
  | hash512 => exact ⟨_, rfl, .of_write fun hb => .of_hashAccept rfl _ hb⟩
  | clear => exact ⟨_, rfl, .of_write fun hb => .clear rfl hb⟩
  | illegalCmd v => exact ⟨_, rfl, .of_write fun _ => .quiet rfl⟩
  | wrCmd v =>
    refine ⟨_, rfl, .of_write fun hb => ?_⟩
    split_ifs with hv
    · exact .quiet rfl
    · exact .of_hashAccept (by simpa [Instr.isLegalCommand] using hv) _ hb
    · exact .clear (by simpa [Instr.isLegalCommand] using hv) hb
  | rdCmd => exact ⟨_, rfl, .quiet rfl⟩
  | rdStatus => exact ⟨_, rfl, .quiet rfl⟩
  | wrStatus v => exact ⟨_, rfl, .quiet rfl⟩
  | wrLenLo v => exact ⟨_, rfl, .of_write fun hb => .lenLo v hb⟩
  | rdLenLo => exact ⟨_, rfl, .quiet rfl⟩
  | wrLenHi v => exact ⟨_, rfl, .of_write fun hb => .lenHi v hb⟩
  | rdLenHi => exact ⟨_, rfl, .quiet rfl⟩
  | rdDigest j => exact ⟨_, rfl, .quiet rfl⟩
  | wrDigest j v => exact ⟨_, rfl, .quiet rfl⟩
  | wrm a v =>
    refine ⟨_, rfl, ?_⟩
    split_ifs
    · exact .quiet (.badAccess s .wr)
    · exact .of_write fun hb => .msg a v hb
  | rdm a =>
    refine ⟨_, rfl, ?_⟩
    split_ifs
    · exact .quiet (.badAccess s .rd)
    · exact .quiet rfl
  | badAccess dir off => exact ⟨_, rfl, .quiet (.badAccess s dir)⟩

theorem Change.of_exec {i : Instr} {s t : State} (h : exec i s = .next t) : Change s i t := by
  obtain ⟨t', e, hc⟩ := exec_change i s
  cases e.symm.trans h
  exact hc

/-- A transaction that changes MSG is a WRM performed while BUSY = 0 (R68, R69). -/
theorem Change.mem {i : Instr} {s t : State} (h : Change s i t) (hm : t.mem ≠ s.mem) :
    s.busy = false ∧ ∃ a v, i = .wrm a v ∧ t.mem = s.mem.writeWord a v := by
  cases h with
  | quiet h => exact absurd h.mem_eq hm
  | msg a v hb => exact ⟨hb, a, v, rfl, rfl⟩
  | _ => exact absurd rfl hm

/-- While BUSY = 1 a transaction changes ERR and the reads at most (R273). -/
theorem Change.sameButErrAndReads {i : Instr} {s t : State} (h : Change s i t) (hb : s.busy = true) :
    SameButErrAndReads s t := by
  have hidle : s.busy ≠ false := by simp [hb]
  cases h with
  | quiet h => exact h
  | lenLo v hb' => exact absurd hb' hidle
  | lenHi v hb' => exact absurd hb' hidle
  | msg a v hb' => exact absurd hb' hidle
  | accept hi F hb' => exact absurd hb' hidle
  | clear hi hb' => exact absurd hb' hidle

/-! ## The digest registers -/

/-- All that a read of DIGEST depends on stands in `t` as in `s` (R208). -/
structure SameDigest (s t : State) : Prop where
  dvalid : t.dvalid = s.dvalid
  fam : t.fam = s.fam
  acc : t.engine.acc = s.engine.acc

theorem SameDigest.refl (s : State) : SameDigest s s := ⟨rfl, rfl, rfl⟩

theorem SameDigest.trans {s t u : State} (hst : SameDigest s t) (htu : SameDigest t u) : SameDigest s u :=
  ⟨htu.dvalid.trans hst.dvalid, htu.fam.trans hst.fam, htu.acc.trans hst.acc⟩

theorem SameDigest.digestWord {s t : State} (h : SameDigest s t) (j : Fin 16) : t.digestWord j = s.digestWord j :=
  State.digestWord_congr h.dvalid h.fam h.acc j

/-- A transaction that presents no legal command word leaves the digest alone (R63). -/
theorem Change.sameDigest {i : Instr} {s t : State} (h : Change s i t) (hi : i.isLegalCommand = false) : SameDigest s t := by
  cases h with
  | quiet h => rw [h]; exact ⟨rfl, rfl, rfl⟩
  | accept hi' F hb => exact absurd (hi.symm.trans hi') (by decide)
  | clear hi' hb => exact absurd (hi.symm.trans hi') (by decide)
  | _ => exact ⟨rfl, rfl, rfl⟩

/-! ## Lists of transactions -/

/-- What every transaction of a list keeps, the list keeps. -/
theorem State.performAll_keeps {P : State → Prop} {ws : List HostWord}
    (hkeep : ∀ w ∈ ws, ∀ s t, exec (decode w) s = .next t → P s → P t) {s : State} (hs : P s) : P (s.performAll ws) := by
  induction ws generalizing s with
  | nil => exact hs
  | cons w ws ih =>
    obtain ⟨t, e, -⟩ := exec_effect (decode w) s
    rw [State.performAll, e]
    exact ih (fun w' hw' => hkeep w' (List.mem_cons_of_mem _ hw')) (hkeep w List.mem_cons_self s t e hs)

/-- No list of transactions disturbs a HASH in progress (R62, R273). -/
theorem State.performAll_sameButErrAndReads_of_busy {s : State} (hb : s.busy = true) (ws : List HostWord) :
    SameButErrAndReads s (s.performAll ws) :=
  State.performAll_keeps (P := SameButErrAndReads s)
    (fun _ _ _ _ e hu => hu.trans ((Change.of_exec e).sameButErrAndReads (hu.busy_eq.trans hb))) (.refl s)

/-- Without a legal command word no list of transactions changes the digest (R63). -/
theorem State.performAll_sameDigest {ws : List HostWord} (h : ∀ w ∈ ws, (decode w).isLegalCommand = false) (s : State) :
    SameDigest s (s.performAll ws) :=
  State.performAll_keeps (P := SameDigest s)
    (fun w hw _ _ e hu => hu.trans ((Change.of_exec e).sameDigest (h w hw))) (.refl s)

/-! ## Transactions whose checks pass -/

theorem State.hashAccept_inRange {s : State} (hl : s.len.toNat ≤ s.msgBytes) (F : Family) :
    s.hashAccept F = s.accepted F :=
  if_neg (Nat.not_lt.2 hl)

/-- A HASH while BUSY = 0 with LEN in range is accepted (R202). -/
theorem exec_hash_accepts {s : State} {i : Instr} {F : Family} (hi : i = .hash256 ∧ F = .f32 ∨ i = .hash512 ∧ F = .f64)
    (hb : s.busy = false) (hl : s.len.toNat ≤ s.msgBytes) : exec i s = .next (s.accepted F) := by
  have e : s.writeUnlessBusy (fun s => s.hashAccept F) = s.accepted F := by
    rw [State.writeUnlessBusy_idle hb, State.hashAccept_inRange hl]
  rw [← e]
  rcases hi with ⟨rfl, rfl⟩ | ⟨rfl, rfl⟩ <;> rfl

theorem State.badMsgAddress_eq_false {s : State} {a : Nat} (ha : a % 4 = 0) (hr : a + 4 ≤ s.msgBytes) :
    s.badMsgAddress a = false := by
  simp only [State.badMsgAddress, misaligned, State.outOfRange, ha, bne_self_eq_false, Bool.false_or, decide_eq_false_iff_not]
  omega

/-- WRM at an address of MSG while BUSY = 0 (R211). -/
theorem exec_wrm_stores {s : State} {a : Nat} (ha : a % 4 = 0) (hr : a + 4 ≤ s.msgBytes) (hb : s.busy = false) (v : Word32) :
    exec (.wrm a v) s = .next { s with mem := s.mem.writeWord a v } := by
  change execWrm a v s = _
  rw [execWrm, State.badMsgAddress_eq_false ha hr, if_neg (by decide), State.writeUnlessBusy_idle hb]

/-- RDM at an address of MSG (R212). -/
theorem exec_rdm_returns {s : State} {a : Nat} (ha : a % 4 = 0) (hr : a + 4 ≤ s.msgBytes) :
    exec (.rdm a) s = .next (s.returnRead (s.mem.readWord a)) := by
  change execRdm a s = _
  rw [execRdm, State.badMsgAddress_eq_false ha hr, if_neg (by decide)]

/-! ## The obligations -/

/-- Settles O23: the WRM stores the word, and a word read after a word write gives the word written. -/
theorem wrmThenRdmReadsBack : Obligations.WrmThenRdmReadsBack := by
  intro a v s t hwf hb ha hr hst
  cases (exec_wrm_stores ha hr hb v).symm.trans hst
  have hread := exec_rdm_returns (s := { s with mem := s.mem.writeWord a v }) ha hr
  rwa [Memory.readWord_writeWord hwf] at hread

/-- Settles O30, by the kinds of step: only a transaction can change MSG, and of the transactions only a WRM. -/
theorem onlyWrmWritesMsg : Obligations.OnlyWrmWritesMsg := by
  intro s t hst hm
  have hmem : s.nextMove.2.mem = s.mem := by rw [s.nextMove_state]
  rw [← hmem] at hm ⊢
  rcases step_cases s with ⟨w, hw, e⟩ | ⟨-, e⟩ | ⟨-, e⟩ | ⟨-, e⟩ <;> rw [e] at hst
  · obtain ⟨hb, a, v, hi, ht⟩ := (Change.of_exec hst).mem hm
    exact ⟨s.nextMove_busy.symm.trans hb, w, a, v, hw, hi, ht⟩
  all_goals
    cases hst
    exact absurd rfl hm

/-- Settles O46: the listed transactions present no legal command word, so they keep all that a DIGEST read depends on. -/
theorem digestStaysReadable : Obligations.DigestStaysReadable := by
  intro s ws j _ _ hws
  have hno : ∀ w ∈ ws, (decode w).isLegalCommand = false := by
    intro w hw
    obtain ⟨h256, h512, hclear, -⟩ := hws w hw 0#32
    cases hd : decode w with
    | hash256 => exact absurd hd h256
    | hash512 => exact absurd hd h512
    | clear => exact absurd hd hclear
    | wrCmd v =>
      obtain ⟨-, -, -, hcmd⟩ := hws w hw v
      exact hcmd hd
    | _ => rfl
  rw [← (State.performAll_sameDigest hno s).digestWord j]
  rfl

end Sys2Proof.Machine
end

section
/-!
PROOFS. The reference sequence computes SHA_F (41_padder_segmenter.md R132 to R138, 43_compression.md R178 to R183): the padded
byte function gives the bytes of the append loop, each run of `blockSteps` micro-steps compresses the next block, and so a HASH
leaves SHA_F of the first LEN_L bytes of its message in the accumulators.
-/

namespace Sys2Proof.Machine

variable {w : Nat}

/-! ## Padded bytes -/

theorem getElem?_beBytes {k q : Nat} (v : Nat) (hq : q < k) : (beBytes k v)[q]? = some (beByte k v q) := by
  rw [beBytes, List.getElem?_map, List.getElem?_range hq, Option.map_some]

/-- Byte p of the append loop's result is the padded byte function's (R135). -/
theorem getElem?_pad {D : Desc w} (h : 0 < D.blockBytes) (m : List Byte) {p : Nat} (hp : p < paddedLength D m.length) :
    (pad D m)[p]? = some (paddedByte D (fun i => m.getD i 0#8) m.length p) := by
  have hP : paddedLength D m.length = m.length + 1 + zeroFill D m.length + D.lenBytes := rfl
  have hz : (List.replicate (zeroFill D m.length) 0x00#8).length = zeroFill D m.length := List.length_replicate
  rw [pad_eq h]
  simp only [paddedByte]
  split_ifs with hmsg hone hzero
  · rw [List.getElem?_append_left hmsg, List.getElem?_eq_getElem hmsg, List.getD_eq_getElem _ _ hmsg]
  · rw [hone, List.getElem?_append_right (le_refl _), Nat.sub_self, List.getElem?_cons_zero]
  · rw [List.getElem?_append_right (by omega), show p - m.length = p - m.length - 1 + 1 by omega, List.getElem?_cons_succ,
      List.getElem?_append_left (by omega), List.getElem?_replicate_of_lt (by omega)]
  · rw [List.getElem?_append_right (by omega), show p - m.length = p - m.length - 1 + 1 by omega, List.getElem?_cons_succ,
      List.getElem?_append_right (by omega), hz, getElem?_beBytes _ (by omega), hP]
    congr 2
    omega

/-- The padded bytes depend on the message bytes below the length only (R62). -/
theorem paddedByte_congr (D : Desc w) {msg msg' : Nat → Byte} {len : Nat} (h : ∀ i, i < len → msg i = msg' i) (p : Nat) :
    paddedByte D msg len p = paddedByte D msg' len p := by
  unfold paddedByte
  split_ifs with hp
  · exact h p hp
  all_goals rfl

/-! ## Blocks -/

/-- The padded message of the `len` bytes `msg` gives. -/
def paddedMessage (D : Desc w) (msg : Nat → Byte) (len : Nat) : List Byte := pad D ((List.range len).map msg)

theorem length_paddedMessage {D : Desc w} (h : 0 < D.blockBytes) (msg : Nat → Byte) (len : Nat) :
    (paddedMessage D msg len).length = paddedLength D len := by
  rw [paddedMessage, length_pad h, List.length_map, List.length_range]

/-- The padded bytes produced on the fly are those of the padded message (R135). -/
theorem getElem?_paddedMessage {D : Desc w} (h : 0 < D.blockBytes) (msg : Nat → Byte) {len p : Nat}
    (hp : p < paddedLength D len) : (paddedMessage D msg len)[p]? = some (paddedByte D msg len p) := by
  have hl : ((List.range len).map msg).length = len := by simp
  rw [paddedMessage, getElem?_pad h _ (by rwa [hl]), hl]
  refine congrArg some (paddedByte_congr D (fun i hi => ?_) p)
  simp [List.getElem?_range hi]

theorem length_blocksOf_paddedMessage {D : Desc w} (h : 0 < D.blockBytes) (msg : Nat → Byte) (len : Nat) :
    (blocksOf D (paddedMessage D msg len)).length = blockCount D len := by
  simp [blocksOf, length_paddedMessage h, blockCount]

/-- The blocks 0 to b are the blocks 0 to b - 1 and block b. -/
theorem take_succ_blocksOf {D : Desc w} {p : List Byte} {b : Nat} (hb : b < p.length / D.blockBytes) :
    (blocksOf D p).take (b + 1) = (blocksOf D p).take b ++ [blockOf D p b] := by
  simp only [blocksOf, ← List.map_take, List.take_range]
  rw [Nat.min_eq_left (by omega), Nat.min_eq_left (by omega), List.range_succ, List.map_append, List.map_singleton]

/-- The bytes LOAD reads for block b are those of block b of the padded message (R135, R136). -/
theorem blockIs_blockOf {D : Desc w} (h : 0 < D.blockBytes) (msg : Nat → Byte) {len b : Nat} (hb : b < blockCount D len) :
    BlockIs D msg len b (blockOf D (paddedMessage D msg len) b) := by
  intro i hi
  have hle : (b + 1) * D.blockBytes ≤ paddedLength D len := by
    rw [← blockCount_mul h]
    exact Nat.mul_le_mul_right _ hb
  rw [Nat.add_one_mul] at hle
  rw [blockOf_getD _ _ _ hi, List.getD_eq_getElem?_getD, getElem?_paddedMessage h msg (by omega), Option.getD_some]

/-! ## The sequence -/

/-- The sequence of a HASH once it has folded the first `b` of the blocks `bs` into IV_F: it stands at the next block, or at
IDLE after the last (R178, R183). What the working registers and the schedule hold is left open. -/
def Engine.threaded (D : Desc w) (bs : List (List Byte)) (b : Nat) (work : Octet 64) (sched : Vector Word64 80) (e : Engine) :
    Engine :=
  { e.begin D with
    acc := ((bs.take b).foldl (compressBlock D) D.iv).map toStore
    work := work
    sched := sched
    block := b
    phase := if b = blockCount D e.lenL.toNat then .idle else .load }

/-- The micro-steps of the first `b` blocks fold these blocks into IV_F, in order (R178, R182, R183). -/
theorem Engine.run_blocks {D : Desc w} (hD : D.Sized) (msg : Nat → Byte) (e : Engine) {b : Nat}
    (hb : b ≤ blockCount D e.lenL.toNat) :
    ∃ work sched, (e.begin D).run D msg (b * blockSteps D) =
      e.threaded D (blocksOf D (paddedMessage D msg e.lenL.toNat)) b work sched := by
  induction b with
  | zero =>
    have hN := blockCount_pos hD e.lenL.toNat
    refine ⟨(e.begin D).work, (e.begin D).sched, ?_⟩
    rw [Nat.zero_mul, Engine.run_zero, Engine.threaded, if_neg (by omega)]
    rfl
  | succ b ih =>
    obtain ⟨work, sched, hr⟩ := ih (by omega)
    have hload : (e.threaded D (blocksOf D (paddedMessage D msg e.lenL.toNat)) b work sched).phase = .load :=
      if_neg (by omega)
    obtain ⟨work', sched', hr'⟩ := Engine.run_block hD hload rfl (blockIs_blockOf hD.blockPos msg hb)
    refine ⟨work', sched', ?_⟩
    rw [Nat.add_one_mul, Engine.run_add, hr, hr', Engine.threaded, Engine.threaded, Octet.map_ofStore_toStore hD.narrow,
      take_succ_blocksOf (by rw [length_paddedMessage hD.blockPos]; exact hb), List.foldl_append]
    rfl

/-- A HASH leaves SHA_F of the first LEN_L bytes of the message in the accumulators (R179, R203). -/
theorem Engine.acc_hash (msg : Nat → Byte) (e : Engine) :
    (e.hash msg).acc = (sha e.famL ((List.range e.lenL.toNat).map msg)).map toStore := by
  have hD := descOf_sized e.famL
  obtain ⟨work, sched, hr⟩ := Engine.run_blocks hD msg e (le_refl _)
  rw [Engine.hash, hr, Engine.threaded, List.take_of_length_le (length_blocksOf_paddedMessage hD.blockPos msg _).le]
  rfl

/-- Completion puts SHA_F of the first LEN_L bytes of MSG into the accumulators (R203). -/
theorem State.complete_acc (s : State) : s.complete.engine.acc = s.expectedDigest := s.engine.acc_hash _

/-! ## The obligations -/

/-- Settles O45: the HASH is accepted with LEN and F latched, and no transaction disturbs it before the completion. -/
theorem digestIsOfTheAcceptedMessage : Obligations.DigestIsOfTheAcceptedMessage := by
  intro s t F i hi hb hl hst ws
  cases (exec_hash_accepts hi hb hl).symm.trans hst
  have hsame := State.performAll_sameButErrAndReads_of_busy (s := s.accepted F) rfl ws
  rw [State.complete_acc, hsame]
  exact ⟨rfl, rfl, rfl, rfl, rfl, rfl⟩

/-- Settles O47: the digest is SHA_F of the bytes below LEN_L. -/
theorem bytesBeyondLenDoNotMatter : Obligations.BytesBeyondLenDoNotMatter := by
  intro s s' hF hL hmem
  have hmsg : s'.message s.engine.lenL.toNat = s.message s.engine.lenL.toNat :=
    List.map_congr_left fun a ha => hmem a (List.mem_range.1 ha)
  rw [State.complete_acc, State.complete_acc, State.expectedDigest, State.expectedDigest, hF, hL, hmsg]

end Sys2Proof.Machine
end

section
/-!
PROOFS. Words and their bytes (20_memory.md R52, R53, R55): the host's word at an address is the schedule word that the padded
bytes there decode to, and a DIGEST word packs four bytes of the digest.
-/

namespace Sys2Proof.Machine

variable {w : Nat}

/-! ## Decoding bytes to a word -/

/-- Bit i of the decoding of `n` bytes is bit i mod 8 of the byte that stands i / 8 places before the last (R10). -/
theorem getLsbD_beWord (f : Nat → Byte) {n i : Nat} (hw : i < w) (hn : i < 8 * n) :
    (beWord w f n).getLsbD i = (f (n - 1 - i / 8)).getLsbD (i % 8) := by
  induction n generalizing i with
  | zero => omega
  | succ n ih =>
    simp only [beWord, BitVec.getLsbD_or, BitVec.getLsbD_shiftLeft, BitVec.getLsbD_setWidth, hw, decide_true, Bool.true_and]
    by_cases hi : i < 8
    · rw [show n + 1 - 1 - i / 8 = n by omega, Nat.mod_eq_of_lt hi]
      simp [hi]
    · rw [ih (i := i - 8) (by omega) (by omega), BitVec.getLsbD_of_ge (f n) i (by omega),
        show n - 1 - (i - 8) / 8 = n + 1 - 1 - i / 8 by omega, show (i - 8) % 8 = i % 8 by omega]
      simp [hi]

/-- The decoding of four bytes has these bytes, the first the most significant (R52). -/
theorem wordByte_beWord (f : Nat → Byte) {k : Nat} (hk : k < 4) : wordByte (beWord 32 f 4) k = f k := by
  apply BitVec.eq_of_getLsbD_eq
  intro i hi
  rw [wordByte, BitVec.getLsbD_extractLsb', getLsbD_beWord f (by omega) (by omega),
    show 4 - 1 - (8 * (3 - k) + i) / 8 = k by omega, show (8 * (3 - k) + i) % 8 = i by omega]
  simp [hi]

/-- The host word at an address is the decoding of its four bytes (R52). -/
theorem beWord_read (m : Memory) (a : Nat) : beWord 32 (fun i => m.read (a + i)) 4 = m.readWord a := by
  rw [← packWord_wordByte (beWord 32 _ 4), wordByte_beWord _ (by omega), wordByte_beWord _ (by omega),
    wordByte_beWord _ (by omega), wordByte_beWord _ (by omega)]
  rfl

/-- The decoding of eight bytes is that of the first four followed by that of the last four (R55). -/
theorem beWord_eight (f : Nat → Byte) : beWord 64 f 8 = beWord 32 f 4 ++ beWord 32 (fun i => f (4 + i)) 4 := by
  apply BitVec.eq_of_getLsbD_eq
  intro i hi
  rw [getLsbD_beWord f hi hi, BitVec.getLsbD_append]
  split_ifs with h
  · rw [getLsbD_beWord _ h h, show 4 + (4 - 1 - i / 8) = 8 - 1 - i / 8 by omega]
  · rw [getLsbD_beWord f (by omega) (by omega), show 4 - 1 - (i - 32) / 8 = 8 - 1 - i / 8 by omega,
      show (i - 32) % 8 = i % 8 by omega]

/-- Padded bytes below the length decode to the word the message bytes there decode to (R135). -/
theorem beWord_paddedByte {v : Nat} (D : Desc w) (msg : Nat → Byte) {len a n : Nat} (h : a + n ≤ len) :
    beWord v (fun i => paddedByte D msg len (a + i)) n = beWord v (fun i => msg (a + i)) n :=
  beWord_congr fun _ hi => if_pos (by omega)

/-! ## Bytes of the digest -/

/-- Byte q of the `k`-byte string of a word starts at its bit 8·(k - 1 - q) (R10). -/
theorem beByte_toNat (x : BitVec w) (k q : Nat) : beByte k x.toNat q = x.extractLsb' (8 * (k - 1 - q)) 8 := by
  rw [beByte, BitVec.extractLsb', Nat.shiftRight_eq_div_pow]

/-- Byte q of the 32 bits from bit `p` on. -/
theorem wordByte_extractLsb' (x : BitVec w) (p : Nat) {q : Nat} (hq : q < 4) :
    wordByte (x.extractLsb' p 32) q = x.extractLsb' (p + 8 * (3 - q)) 8 := by
  apply BitVec.eq_of_getLsbD_eq
  intro i hi
  simp only [wordByte, BitVec.getLsbD_extractLsb', hi, decide_true, Bool.true_and, ← Nat.add_assoc]
  rw [decide_eq_true (by omega), Bool.true_and]

theorem length_flatMap_range {α : Type} {f : Nat → List α} {n : Nat} (hf : ∀ k, (f k).length = n) (m : Nat) :
    ((List.range m).flatMap f).length = n * m := by
  simp [List.length_flatMap, hf, Nat.mul_comm]

/-- In a row of strings of `n` places each, place n·k + q of the row is place q of string k. -/
theorem getElem?_flatMap_range {α : Type} {f : Nat → List α} {n : Nat} (hf : ∀ k, (f k).length = n) {m k q : Nat}
    (hk : k < m) (hq : q < n) : ((List.range m).flatMap f)[n * k + q]? = (f k)[q]? := by
  induction m with
  | zero => omega
  | succ m ih =>
    have hl := length_flatMap_range hf m
    rw [List.range_succ, List.flatMap_append, List.flatMap_singleton]
    rcases Nat.lt_succ_iff_lt_or_eq.1 hk with hlt | rfl
    · have := Nat.mul_le_mul_left n hlt
      rw [Nat.mul_succ] at this
      rw [List.getElem?_append_left (by omega), ih hlt]
    · rw [List.getElem?_append_right (by omega), hl, Nat.add_sub_cancel_left]

/-- Byte q of H[k] stands at place wb·k + q of the digest (R180). -/
theorem getElem?_digestBytes (D : Desc w) (h : Octet w) {k q : Nat} (hk : k < 8) (hq : q < D.wordBytes) :
    (digestBytes D h)[D.wordBytes * k + q]? = some ((h.word k).extractLsb' (8 * (D.wordBytes - 1 - q)) 8) := by
  rw [digestBytes, getElem?_flatMap_range (fun k => length_beBytes _ _) hk hq, getElem?_beBytes _ hq, beByte_toNat]

/-- The four bytes of the digest from place `o` of H[k] on are the bytes of 32 bits of the accumulator's storage (R27, R180). -/
theorem getD_digestBytes_ofStore {D : Desc w} (hD : D.Sized) (acc : Octet 64) {k o q : Nat} (hk : k < 8)
    (ho : o + 4 ≤ D.wordBytes) (hq : q < 4) :
    (digestBytes D (acc.map (ofStore w))).getD (D.wordBytes * k + o + q) 0#8 =
      wordByte ((acc.word k).extractLsb' (8 * (D.wordBytes - 4 - o)) 32) q := by
  have hbits := hD.wordBits
  rw [List.getD_eq_getElem?_getD, Nat.add_assoc, getElem?_digestBytes D _ hk (by omega), Option.getD_some, Octet.word_map,
    ofStore, BitVec.extractLsb'_setWidth_of_le (by omega), wordByte_extractLsb' _ _ hq]
  congr 1
  omega

@[simp] theorem descOf_f32_wordBytes : (descOf .f32).wordBytes = 4 := rfl

@[simp] theorem descOf_f64_wordBytes : (descOf .f64).wordBytes = 8 := rfl

/-- A DIGEST word of a valid digest is the 32 bits at place 4j of the accumulators, in words of wb bytes (R208). -/
theorem State.digestWord_of_valid {s : State} {F : Family} (hv : s.dvalid = true) (hF : s.fam = F) {j : Fin 16}
    (hj : 4 * j.val < 8 * (descOf F).wordBytes) :
    s.digestWord j = (s.engine.acc.word (4 * j.val / (descOf F).wordBytes)).extractLsb'
      (8 * ((descOf F).wordBytes - 4 - 4 * j.val % (descOf F).wordBytes)) 32 := by
  cases F with
  | f32 =>
    rw [descOf_f32_wordBytes] at hj ⊢
    simp only [State.digestWord, hv, hF, Bool.true_eq_false, if_false]
    rw [if_pos (by omega), show 4 * j.val / 4 = j.val by omega, show 8 * (4 - 4 - 4 * j.val % 4) = 0 by omega]
  | f64 =>
    rw [descOf_f64_wordBytes]
    simp only [State.digestWord, hv, hF, Bool.true_eq_false, if_false]
    split_ifs with heven
    · rw [show 4 * j.val / 8 = j.val / 2 by omega, show 8 * (8 - 4 - 4 * j.val % 8) = 32 by omega]
    · rw [show 4 * j.val / 8 = (j.val - 1) / 2 by omega, show 8 * (8 - 4 - 4 * j.val % 8) = 0 by omega]

/-- Four bytes of the digest from a multiple of 4 on lie in one word of it. -/
theorem descOf_fourBytes_fit (F : Family) (j : Nat) : 4 * j % (descOf F).wordBytes + 4 ≤ (descOf F).wordBytes := by
  cases F with
  | f32 => rw [descOf_f32_wordBytes]; omega
  | f64 => rw [descOf_f64_wordBytes]; omega

/-- Byte q of a DIGEST word is byte 4j + q of the digest (R53). -/
theorem State.getD_digestBytes {s : State} {F : Family} (hv : s.dvalid = true) (hF : s.fam = F) {j : Fin 16}
    (hj : 4 * j.val < 8 * (descOf F).wordBytes) {q : Nat} (hq : q < 4) :
    (digestBytes (descOf F) (s.engine.acc.map (ofStore F.width))).getD (4 * j.val + q) 0#8 =
      wordByte (s.digestWord j) q := by
  have hk : 4 * j.val / (descOf F).wordBytes < 8 := Nat.div_lt_of_lt_mul (hj.trans_eq (Nat.mul_comm _ _))
  have hbyte := getD_digestBytes_ofStore (descOf_sized F) s.engine.acc hk (descOf_fourBytes_fit F j.val) hq
  rwa [Nat.div_add_mod, ← State.digestWord_of_valid hv hF hj] at hbyte

/-! ## The obligations -/

/-- Settles O19: the four bytes are those of the DIGEST word, and a word is packed from its bytes. -/
theorem digestWordPacksFourBytes : Obligations.DigestWordPacksFourBytes := by
  intro s j hv hj d
  have hbyte : ∀ q, q < 4 → d.getD (4 * j.val + q) 0#8 = wordByte (s.digestWord j) q :=
    fun q hq => State.getD_digestBytes hv rfl hj hq
  rw [hbyte 1 (by omega), hbyte 2 (by omega), hbyte 3 (by omega), ← Nat.add_zero (4 * j.val), hbyte 0 (by omega),
    packWord_wordByte]
  rfl

/-- Settles O39: below LEN the padded bytes are those of MSG, and their decoding is one host word, or two. -/
theorem hostWordsAreScheduleWords : Obligations.HostWordsAreScheduleWords := by
  intro s len k j _
  simp only [← Nat.add_assoc]
  refine ⟨fun h => ?_, fun h => ?_⟩
  · rw [beWord_paddedByte desc32 _ h, beWord_read]
  · rw [beWord_paddedByte desc64 _ h, beWord_eight, beWord_read]
    simp only [← Nat.add_assoc]
    rw [beWord_read]

end Sys2Proof.Machine
end

section
/-!
PROOFS. Encoding and decoding (30_encoding.md R80 to R88): the decoder inverts the encoder, a command word is its three fields and
legal for three values of them, and a bad REG access is read exactly where no register is mapped.
-/

namespace Sys2Proof

open Sys2Proof.Machine

/-! ## The transaction descriptor (R86) -/

@[simp] theorem tdDir_tdOf (dir : Dir) (isMsg : Bool) (off : BitVec 8) : tdDir (tdOf dir isMsg off) = dir := by
  rw [tdDir, tdOf, BitVec.getLsbD_append, BitVec.getLsbD_append]
  cases dir <;> rfl

@[simp] theorem tdIsMsg_tdOf (dir : Dir) (isMsg : Bool) (off : BitVec 8) : tdIsMsg (tdOf dir isMsg off) = isMsg := by
  rw [tdIsMsg, tdOf, BitVec.getLsbD_append, BitVec.getLsbD_append]
  cases isMsg <;> rfl

@[simp] theorem tdOffset_tdOf (dir : Dir) (isMsg : Bool) (off : BitVec 8) : tdOffset (tdOf dir isMsg off) = off :=
  BitVec.extractLsb'_append_eq_right

theorem decode_reg (dir : Dir) (off : BitVec 8) (addr : Nat) (data : Word32) :
    decode (.bus (tdOf dir false off) addr data) = decodeReg dir off data := by
  simp [decode, decodeBus]

/-- An MSG write is a WRM of its address, whatever TD[7:0] is. -/
theorem decode_msgWrite (off : BitVec 8) (addr : Nat) (data : Word32) :
    decode (.bus (tdOf .wr true off) addr data) = .wrm addr data := by
  simp [decode, decodeBus]

/-- An MSG read is an RDM of its address, whatever TD[7:0] is. -/
theorem decode_msgRead (off : BitVec 8) (addr : Nat) (data : Word32) :
    decode (.bus (tdOf .rd true off) addr data) = .rdm addr := by
  simp [decode, decodeBus]

/-! ## REG offsets (R22, R86) -/

theorem isMappedOffset_eq_false_iff (off : BitVec 8) :
    isMappedOffset off = false ↔
      off.toNat % 4 ≠ 0 ∨ (0x10 ≤ off.toNat ∧ off.toNat ≤ 0x3F) ∨ 0x80 ≤ off.toNat := by
  rw [← Bool.not_eq_true, isMappedOffset, Bool.and_eq_true, Bool.or_eq_true, Bool.and_eq_true, beq_iff_eq,
    decide_eq_true_iff, decide_eq_true_iff, decide_eq_true_iff]
  omega

/-- The tests the decoder makes of the offset's bits pick out the mapped offsets. -/
theorem isMappedOffset_iff_bits (off : BitVec 8) :
    isMappedOffset off = true ↔ off.extractLsb' 0 2 = 0#2 ∧
      (off = 0x00#8 ∨ off = 0x04#8 ∨ off = 0x08#8 ∨ off = 0x0C#8 ∨ off.extractLsb' 6 2 = 0b01#2) := by
  have := off.isLt
  rw [isMappedOffset, Bool.and_eq_true, Bool.or_eq_true, Bool.and_eq_true, beq_iff_eq,
    decide_eq_true_iff, decide_eq_true_iff, decide_eq_true_iff]
  simp only [← BitVec.toNat_inj, BitVec.extractLsb'_toNat, BitVec.toNat_ofNat, Nat.shiftRight_eq_div_pow]
  omega

theorem decodeReg_of_unmapped {off : BitVec 8} (h : isMappedOffset off = false) (dir : Dir) (data : Word32) :
    decodeReg dir off data = .badAccess dir off := by
  rw [← Bool.not_eq_true, isMappedOffset_iff_bits] at h
  by_cases haligned : off.extractLsb' 0 2 = 0#2
  · have hoff := fun h' => h ⟨haligned, h'⟩
    simp only [imp_false, not_or] at hoff
    obtain ⟨h0, h4, h8, hC, hdigest⟩ := hoff
    simp only [decodeReg, if_neg (not_not.2 haligned), if_neg h0, if_neg h4, if_neg h8, if_neg hC, if_neg hdigest]
  · simp only [decodeReg, if_pos haligned]

/-- The aligned offsets with bits [7:6] = 01 are DIGEST[j], j in bits [5:2]. -/
theorem decodeReg_of_digestBits {off : BitVec 8} (haligned : off.extractLsb' 0 2 = 0#2)
    (hdigest : off.extractLsb' 6 2 = 0b01#2) (data : Word32) :
    decodeReg .wr off data = .wrDigest (digestIndex off) data ∧ decodeReg .rd off data = .rdDigest (digestIndex off) := by
  have hne : ∀ c : BitVec 8, c.extractLsb' 6 2 ≠ 0b01#2 → off ≠ c := fun c hc h => hc (h ▸ hdigest)
  simp only [decodeReg, if_neg (not_not.2 haligned), if_neg (hne 0x00#8 (by decide)), if_neg (hne 0x04#8 (by decide)),
    if_neg (hne 0x08#8 (by decide)), if_neg (hne 0x0C#8 (by decide)), if_pos hdigest, and_self]

/-- The offset of DIGEST[j] is aligned, has bits [7:6] = 01 and j in bits [5:2] (R22). -/
theorem bits_digestOffset (j : Fin 16) :
    (digestOffset j).extractLsb' 0 2 = 0#2 ∧ (digestOffset j).extractLsb' 6 2 = 0b01#2 ∧
      digestIndex (digestOffset j) = j := by
  revert j
  decide

theorem decodeReg_digestOffset (j : Fin 16) (data : Word32) :
    decodeReg .wr (digestOffset j) data = .wrDigest j data ∧ decodeReg .rd (digestOffset j) data = .rdDigest j := by
  obtain ⟨haligned, hdigest, hj⟩ := bits_digestOffset j
  have h := decodeReg_of_digestBits haligned hdigest data
  rwa [hj] at h

theorem wf_decodeReg (dir : Dir) (off : BitVec 8) (data : Word32) : (decodeReg dir off data).wf = true := by
  cases hmapped : isMappedOffset off with
  | false =>
    rw [decodeReg_of_unmapped hmapped, Instr.wf, hmapped]
    rfl
  | true =>
    obtain ⟨haligned, rfl | rfl | rfl | rfl | hdigest⟩ := (isMappedOffset_iff_bits off).1 hmapped
    case inr.inr.inr.inr =>
      obtain ⟨hwr, hrd⟩ := decodeReg_of_digestBits haligned hdigest data
      cases dir
      · rw [hrd]; rfl
      · rw [hwr]; rfl
    all_goals cases dir <;> rfl

theorem decodeReg_eq_badAccess_iff (dir : Dir) (off : BitVec 8) (data : Word32) :
    decodeReg dir off data = .badAccess dir off ↔ isMappedOffset off = false := by
  refine ⟨fun h => ?_, fun h => decodeReg_of_unmapped h dir data⟩
  have hwf := wf_decodeReg dir off data
  rw [h, Instr.wf] at hwf
  exact (Bool.not_eq_true' _).mp hwf

/-! ## Command words (R80 to R84) -/

/-- A command word is its three fields (R80). -/
theorem eq_of_commandFields {v v' : Word32} (hop : commandOp v = commandOp v') (hfam : commandFam v = commandFam v')
    (hrsvd : commandRsvd v = commandRsvd v') : v = v' := by
  apply BitVec.eq_of_getLsbD_eq
  intro i hi
  rcases lt_trichotomy i 4 with h | rfl | h
  · simpa [commandOp, h, hi] using congrArg (BitVec.getLsbD · i) hop
  · exact hfam
  · simpa [commandRsvd, hi, show i - 5 < 27 by omega, show 5 + (i - 5) = i by omega] using
      congrArg (BitVec.getLsbD · (i - 5)) hrsvd

/-- R83's test of a command word, field by field. -/
theorem legalCommand_iff_fields (v : Word32) :
    legalCommand v = true ↔
      commandRsvd v = 0#27 ∧ (commandOp v = 0x1#4 ∨ (commandOp v = 0x2#4 ∧ commandFam v = false)) := by
  simp only [legalCommand, Bool.and_eq_true, Bool.or_eq_true, beq_iff_eq, Bool.not_eq_true']

/-- R84: exactly three command words are legal. -/
theorem legalCommand_iff (v : Word32) :
    legalCommand v = true ↔ v = 0x00000001#32 ∨ v = 0x00000011#32 ∨ v = 0x00000002#32 := by
  refine ⟨fun h => ?_, ?_⟩
  · obtain ⟨hrsvd, hop | ⟨hop, hfam⟩⟩ := (legalCommand_iff_fields v).1 h
    · cases hfam : commandFam v
      · exact .inl (eq_of_commandFields hop hfam hrsvd)
      · exact .inr (.inl (eq_of_commandFields hop hfam hrsvd))
    · exact .inr (.inr (eq_of_commandFields hop hfam hrsvd))
  · rintro (rfl | rfl | rfl) <;> rfl

theorem legalCommand_eq_isListedCommand (v : Word32) : legalCommand v = isListedCommand v := by
  rw [Bool.eq_iff_iff, legalCommand_iff]
  simp only [isListedCommand, Bool.or_eq_true, beq_iff_eq, or_assoc]

theorem decodeCommand_of_illegal {v : Word32} (h : legalCommand v = false) : decodeCommand v = .illegalCmd v := by
  rw [decodeCommand, if_neg (by simp [h])]

/-- The row of each command word (R82, R84). -/
theorem decodeCommand_cases (v : Word32) :
    (v = 0x00000001#32 ∧ decodeCommand v = .hash256) ∨ (v = 0x00000011#32 ∧ decodeCommand v = .hash512) ∨
      (v = 0x00000002#32 ∧ decodeCommand v = .clear) ∨
      (legalCommand v = false ∧ decodeCommand v = .illegalCmd v) := by
  cases h : legalCommand v with
  | false => exact .inr (.inr (.inr ⟨rfl, decodeCommand_of_illegal h⟩))
  | true =>
    rcases (legalCommand_iff v).1 h with rfl | rfl | rfl
    · exact .inl ⟨rfl, rfl⟩
    · exact .inr (.inl ⟨rfl, rfl⟩)
    · exact .inr (.inr (.inl ⟨rfl, rfl⟩))

theorem encode_decodeCommand (v : Word32) : encode (decodeCommand v) = .cmd v := by
  rcases decodeCommand_cases v with ⟨rfl, e⟩ | ⟨rfl, e⟩ | ⟨rfl, e⟩ | ⟨-, e⟩ <;> rw [e] <;> rfl

/-- Distinct command words decode to distinct instructions. -/
theorem decodeCommand_injective : Function.Injective decodeCommand := fun v v' h =>
  HostWord.cmd.inj (by rw [← encode_decodeCommand v, h, encode_decodeCommand])

theorem wf_decodeCommand (v : Word32) : (decodeCommand v).wf = true := by
  rcases decodeCommand_cases v with ⟨-, e⟩ | ⟨-, e⟩ | ⟨-, e⟩ | ⟨h, e⟩ <;> rw [e]
  case inr.inr.inr => rw [Instr.wf, ← legalCommand_eq_isListedCommand, h]; rfl
  all_goals rfl

/-! ## The decoder -/

theorem wf_decode (w : HostWord) : (decode w).wf = true := by
  cases w with
  | cmd v => exact wf_decodeCommand v
  | bus td addr data =>
    rw [decode, decodeBus]
    split
    · cases tdDir td <;> rfl
    · exact wf_decodeReg _ _ _

/-- The decoder inverts the encoder, row by row. -/
theorem decode_encode {i : Instr} (h : i.wf = true) : decode (encode i) = i := by
  cases i with
  | illegalCmd v =>
    refine decodeCommand_of_illegal ?_
    rw [legalCommand_eq_isListedCommand]
    exact (Bool.not_eq_true' _).mp h
  | rdDigest j => exact (decode_reg _ _ _ _).trans (decodeReg_digestOffset j _).2
  | wrDigest j v => exact (decode_reg _ _ _ _).trans (decodeReg_digestOffset j v).1
  | wrm a v => exact decode_msgWrite _ _ _
  | rdm a => exact decode_msgRead _ _ _
  | badAccess dir off =>
    exact (decode_reg _ _ _ _).trans (decodeReg_of_unmapped ((Bool.not_eq_true' _).mp h) dir _)
  | _ => rfl

end Sys2Proof

namespace Sys2Proof.Machine

/-! ## What a command word does -/

/-- Every illegal command word raises ILLEGAL_CMD, as its WR CMD does (R201, R205). -/
theorem exec_decode_illegal {v : Word32} (h : legalCommand v = false) (s : State) :
    exec (decode (.cmd v)) s = .next (s.writeUnlessBusy fun s => s.raiseError .illegalCmd) := by
  rw [decode, decodeCommand_of_illegal h]
  rfl

theorem exec_wrCmd_illegal {v : Word32} (h : legalCommand v = false) (s : State) :
    exec (.wrCmd v) s = .next (s.writeUnlessBusy fun s => s.raiseError .illegalCmd) := by
  change execWrCmd v s = _
  simp only [execWrCmd, h, if_true]

/-! ## The obligations -/

/-- Settles O1, by the rows of the table. -/
theorem decodeOfEncode : Obligations.DecodeOfEncode := fun _ h => decode_encode h

/-- Settles O2: the fallback rows are answered for illegal words and unmapped offsets only. -/
theorem decodedIsWellFormed : Obligations.DecodedIsWellFormed := wf_decode

/-- Settles O3, by evaluating the decoder on each word. -/
theorem specWordsDecode : Obligations.SpecWordsDecode := by
  unfold Obligations.SpecWordsDecode
  decide

/-- Settles O4: each word is one of the three legal ones, with its row, or illegal. -/
theorem exactlyThreeLegalCommands : Obligations.ExactlyThreeLegalCommands := by
  intro v
  have hrow : ∀ u : Word32, decode (.cmd v) = decode (.cmd u) ↔ v = u := fun u => decodeCommand_injective.eq_iff
  refine ⟨legalCommand_iff v, legalCommand_iff_fields v, hrow 0x00000001#32, hrow 0x00000011#32, hrow 0x00000002#32,
    decodeCommand_of_illegal, fun v' h h' s => ?_⟩
  rw [exec_decode_illegal h, exec_decode_illegal h']

/-- Settles O5: the decoder answers BAD_ACCESS exactly where no register is mapped. -/
theorem busDecodesUnmappedOffsets : Obligations.BusDecodesUnmappedOffsets := by
  intro dir off addr data
  refine ⟨?_, decode_msgWrite off addr data, decode_msgRead off addr data⟩
  rw [decode_reg, decodeReg_eq_badAccess_iff, isMappedOffset_eq_false_iff]

/-- Settles O7, by the rows a command word can have. -/
theorem commandLineActsAsWrCmd : Obligations.CommandLineActsAsWrCmd := by
  intro v s
  rcases decodeCommand_cases v with ⟨rfl, -⟩ | ⟨rfl, -⟩ | ⟨rfl, -⟩ | ⟨h, -⟩
  case inr.inr.inr => rw [exec_decode_illegal h, exec_wrCmd_illegal h]
  all_goals rfl

end Sys2Proof.Machine
end

section
/-!
PROOFS. Runs of the host's program (30_encoding.md R87, R88): what the next move is for each turn, what a step does for each move,
and what SETLEN and WAIT come to.
-/

namespace Sys2Proof.Machine

/-! ## The next move, by whose turn it is (R5, R276) -/

theorem State.nextMove_host {s : State} {ts : List Turn} (ht : s.turns = .host :: ts) :
    s.nextMove = State.hostMove { s with turns := ts } := by
  rw [State.nextMove, ht]

theorem State.nextMove_core_busy {s : State} {ts : List Turn} (ht : s.turns = .core :: ts) (hb : s.busy = true) :
    s.nextMove = (.complete, { s with turns := ts }) := by
  rw [State.nextMove, ht]
  exact if_pos hb

theorem State.nextMove_core_idle {s : State} {ts : List Turn} (ht : s.turns = .core :: ts) (hb : s.busy = false) :
    s.nextMove = (.idle, { s with turns := ts }) := by
  rw [State.nextMove, ht]
  exact if_neg (by simp [hb])

theorem State.nextMove_reset {s : State} {ts : List Turn} (ht : s.turns = .reset :: ts) :
    s.nextMove = (.reset, { s with turns := ts }) := by
  rw [State.nextMove, ht]

/-- With no turn left a HASH in progress ends (assumption 7). -/
theorem State.nextMove_noTurn_busy {s : State} (ht : s.turns = []) (hb : s.busy = true) : s.nextMove = (.complete, s) := by
  simp [State.nextMove, State.coreMove, ht, hb]

/-- With no turn left and BUSY = 0 the host moves (assumption 7). -/
theorem State.nextMove_noTurn_idle {s : State} (ht : s.turns = []) (hb : s.busy = false) : s.nextMove = s.hostMove := by
  simp [State.nextMove, ht, hb]

/-! ## The host's move, by its next line (R87, R88) -/

theorem State.hostMove_txn {s : State} {w : HostWord} {rest : List HostLine} (hp : s.program = .txn w :: rest) :
    s.hostMove = (.transact w, { s with program := rest }) := by
  rw [State.hostMove, hp]

theorem State.hostMove_wait_busy {s : State} {rest : List HostLine} (hp : s.program = .wait :: rest) (hb : s.busy = true) :
    s.hostMove = (.transact (rdReg 0x04#8), s) := by
  rw [State.hostMove, hp]
  simp [hb]

theorem State.hostMove_wait_idle {s : State} {rest : List HostLine} (hp : s.program = .wait :: rest) (hb : s.busy = false) :
    s.hostMove = (.transact (rdReg 0x04#8), { s with program := rest }) := by
  rw [State.hostMove, hp]
  simp [hb]

/-! ## A step, by the move -/

theorem step_of_transact {s s' : State} {w : HostWord} (h : s.nextMove = (.transact w, s')) :
    step s = exec (decode w) s' := by rw [step, h]

theorem step_of_complete {s s' : State} (h : s.nextMove = (.complete, s')) : step s = .next s'.complete := by rw [step, h]

theorem step_of_reset {s s' : State} (h : s.nextMove = (.reset, s')) : step s = .next s'.resetEvent := by rw [step, h]

theorem step_of_idle {s s' : State} (h : s.nextMove = (.idle, s')) : step s = .next s' := by rw [step, h]

/-! ## Runs -/

@[simp] theorem State.after_zero (s : State) : s.after 0 = s := rfl

theorem State.after_succ {s t : State} (h : step s = .next t) (n : Nat) : s.after (n + 1) = t.after n := by
  rw [State.after, h]

/-- With no turn left and BUSY = 0 a run begins with the transaction on the host's next line (assumption 7). -/
theorem State.after_succ_txn {s t : State} {w : HostWord} {i : Instr} {rest : List HostLine}
    (hp : s.program = .txn w :: rest) (ht : s.turns = []) (hb : s.busy = false) (hd : decode w = i)
    (he : exec i { s with program := rest } = .next t) {n : Nat} : s.after (n + 1) = t.after n := by
  refine State.after_succ ?_ n
  rw [step_of_transact ((State.nextMove_noTurn_idle ht hb).trans (State.hostMove_txn hp)), hd, he]

/-! ## SETLEN (R88) -/

theorem exec_wrLenLo_idle {s : State} (hb : s.busy = false) (v : Word32) :
    exec (.wrLenLo v) s = .next { s with lenLo := v } :=
  congrArg Host.Outcome.next (State.writeUnlessBusy_idle hb _)

theorem exec_wrLenHi_idle {s : State} (hb : s.busy = false) (v : Word32) :
    exec (.wrLenHi v) s = .next { s with lenHi := v } :=
  congrArg Host.Outcome.next (State.writeUnlessBusy_idle hb _)

/-- Settles O54: the two writes of SETLEN take the two halves of n. -/
theorem setLenSetsLen : Obligations.SetLenSetsLen := by
  intro s n rest hp ht hb
  let lo := n.extractLsb' 0 32
  let hi := n.extractLsb' 32 32
  have hrun : s.after 2 = { s with program := rest, lenLo := lo, lenHi := hi } := by
    rw [State.after_succ_txn hp ht hb (decode_encode (i := .wrLenLo lo) rfl) (exec_wrLenLo_idle (by exact hb) lo)]
    exact State.after_succ_txn (s := { s with program := .txn (wrReg 0x0C#8 hi) :: rest, lenLo := lo }) rfl ht hb
      (decode_encode (i := .wrLenHi hi) rfl) (exec_wrLenHi_idle (by exact hb) hi)
  rw [hrun]
  exact ⟨rfl, BitVec.extractLsb'_append_extractLsb'⟩

/-! ## WAIT (R88) -/

/-- Bit 0 of STATUS is BUSY (R24). -/
theorem State.statusWord_getLsbD_zero (s : State) : s.statusWord.getLsbD 0 = s.busy := by
  rw [State.statusWord, BitVec.getLsbD_setWidth, BitVec.getLsbD_append]
  cases s.busy <;> rfl

/-- What a host move at a WAIT reads is STATUS (R88). -/
theorem exec_decode_rdStatus (s : State) : exec (decode (rdReg 0x04#8)) s = .next (s.returnRead s.statusWord) := by
  rw [show decode (rdReg 0x04#8) = .rdStatus from decode_encode (i := .rdStatus) rfl]
  rfl

/-- The WAIT on the host's next line ends within `k` steps, the last value read having bit 0 clear. -/
def State.WaitEndsWithin (s : State) (rest : List HostLine) (k : Nat) : Prop :=
  ∃ n v, n ≤ k ∧ (s.after n).program = rest ∧ (s.after n).reads.head? = some v ∧ v.getLsbD 0 = false

theorem State.WaitEndsWithin.mono {s : State} {rest : List HostLine} {k m : Nat} (h : s.WaitEndsWithin rest k) (hkm : k ≤ m) :
    s.WaitEndsWithin rest m := by
  obtain ⟨n, v, hn, hend⟩ := h
  exact ⟨n, v, hn.trans hkm, hend⟩

theorem State.WaitEndsWithin.of_step {s t : State} {rest : List HostLine} {k : Nat} (hst : step s = .next t)
    (h : t.WaitEndsWithin rest k) : s.WaitEndsWithin rest (k + 1) := by
  obtain ⟨n, v, hn, hend⟩ := h
  refine ⟨n + 1, v, Nat.succ_le_succ hn, ?_⟩
  rwa [State.after_succ hst]

/-- The host's move at a WAIT with BUSY = 0 is the last read of the WAIT. -/
theorem State.WaitEndsWithin.of_hostMove {s s' : State} {rest : List HostLine} (hm : s.nextMove = s'.hostMove)
    (hp : s'.program = .wait :: rest) (hb : s'.busy = false) : s.WaitEndsWithin rest 1 := by
  have hst := step_of_transact (hm.trans (State.hostMove_wait_idle hp hb))
  rw [exec_decode_rdStatus] at hst
  refine ⟨1, s'.statusWord, le_refl _, ?_⟩
  rw [State.after_succ hst]
  exact ⟨rfl, rfl, s'.statusWord_getLsbD_zero.trans hb⟩

/-- Every WAIT ends: each turn is used up by a step, and with none left the completion comes first (assumption 7). -/
theorem State.waitEndsWithin {rest : List HostLine} (ts : List Turn) {s : State} (ht : s.turns = ts)
    (hp : s.program = .wait :: rest) : s.WaitEndsWithin rest (ts.length + 2) := by
  induction ts generalizing s with
  | nil =>
    cases hb : s.busy with
    | false => exact (State.WaitEndsWithin.of_hostMove (State.nextMove_noTurn_idle ht hb) hp hb).mono (by simp)
    | true =>
      exact .of_step (step_of_complete (State.nextMove_noTurn_busy ht hb))
        (.of_hostMove (State.nextMove_noTurn_idle (s := s.complete) ht rfl) hp rfl)
  | cons turn ts ih =>
    cases turn with
    | host =>
      cases hb : s.busy with
      | false => exact (State.WaitEndsWithin.of_hostMove (State.nextMove_host ht) hp hb).mono (by simp)
      | true =>
        have hst := step_of_transact ((State.nextMove_host ht).trans (State.hostMove_wait_busy hp hb))
        rw [exec_decode_rdStatus] at hst
        exact .of_step hst (ih rfl hp)
    | core =>
      cases hb : s.busy with
      | false => exact .of_step (step_of_idle (State.nextMove_core_idle ht hb)) (ih rfl hp)
      | true => exact .of_step (step_of_complete (State.nextMove_core_busy ht hb)) (ih rfl hp)
    | reset => exact .of_step (step_of_reset (State.nextMove_reset ht)) (ih rfl hp)

/-- Settles O53, by induction on the turns left. -/
theorem waitEnds : Obligations.WaitEnds := fun s _ hp => s.waitEndsWithin s.turns rfl hp

end Sys2Proof.Machine
end

section
/-!
PROOFS. LOADMSG (30_encoding.md R88): its lines are WRMs of consecutive words, and what a row of words leaves in MSG and in ERR
(20_memory.md R52, R55, R58, 44_commands.md R211, R213).
-/

namespace Sys2Proof.Machine

/-! ## One word -/

/-- What WRM a, v makes of an idle state (R211). -/
def State.storeWord (s : State) (a : Nat) (v : Word32) : State :=
  if s.badMsgAddress a then s.raiseError .badAccess else { s with mem := s.mem.writeWord a v }

theorem exec_wrm_idle {s : State} (hb : s.busy = false) (a : Nat) (v : Word32) :
    exec (.wrm a v) s = .next (s.storeWord a v) := by
  change execWrm a v s = _
  rw [execWrm, State.writeUnlessBusy_idle hb]
  rfl

/-- A word is turned away with BAD_ACCESS, or lies in MSG and is stored (R55, R58). -/
theorem State.storeWord_cases (s : State) (a : Nat) (v : Word32) :
    (s.badMsgAddress a = true ∧ s.storeWord a v = s.raiseError .badAccess) ∨
      (a + 4 ≤ s.msgBytes ∧ s.storeWord a v = { s with mem := s.mem.writeWord a v }) := by
  cases h : s.badMsgAddress a with
  | true => exact .inl ⟨rfl, if_pos h⟩
  | false => exact .inr ⟨(State.not_badMsgAddress h).2, if_neg (by simp [h])⟩

theorem State.storeWord_of_misaligned {s : State} {a : Nat} (ha : a % 4 ≠ 0) (v : Word32) :
    s.storeWord a v = s.raiseError .badAccess :=
  if_pos (by simp [State.badMsgAddress, misaligned, ha])

theorem State.storeWord_of_outOfRange {s : State} {a : Nat} (hr : s.msgBytes < a + 4) (v : Word32) :
    s.storeWord a v = s.raiseError .badAccess :=
  if_pos (by simp [State.badMsgAddress, State.outOfRange, hr])

theorem State.storeWord_of_inRange {s : State} {a : Nat} (ha : a % 4 = 0) (hr : a + 4 ≤ s.msgBytes) (v : Word32) :
    s.storeWord a v = { s with mem := s.mem.writeWord a v } :=
  if_neg (by simp [State.badMsgAddress_eq_false ha hr])

/-- A word changes MSG and ERR only. -/
theorem State.storeWord_frame (s : State) (a : Nat) (v : Word32) :
    s.storeWord a v = { s with mem := (s.storeWord a v).mem, err := (s.storeWord a v).err } := by
  unfold State.storeWord
  split_ifs <;> rfl

/-- The host's program has no part in a WRM. -/
theorem State.storeWord_program (s : State) (a : Nat) (v : Word32) (p : List HostLine) :
    { s with program := p : State }.storeWord a v = { s.storeWord a v with program := p } := by
  have hbad : { s with program := p : State }.badMsgAddress a = s.badMsgAddress a := rfl
  unfold State.storeWord
  rw [hbad]
  split_ifs <;> rfl

theorem State.storeWord_busy (s : State) (a : Nat) (v : Word32) : (s.storeWord a v).busy = s.busy := by
  rw [s.storeWord_frame]

theorem State.storeWord_turns (s : State) (a : Nat) (v : Word32) : (s.storeWord a v).turns = s.turns := by
  rw [s.storeWord_frame]

theorem State.storeWord_msgBytes (s : State) (a : Nat) (v : Word32) : (s.storeWord a v).msgBytes = s.msgBytes := by
  rw [s.storeWord_frame]
  rfl

theorem State.wf_storeWord {s : State} (h : s.mem.wf = true) (a : Nat) (v : Word32) : (s.storeWord a v).mem.wf = true := by
  rcases s.storeWord_cases a v with ⟨-, e⟩ | ⟨-, e⟩ <;> rw [e]
  · exact h
  · exact Memory.wf_writeWord h a v

/-- A word leaves every byte alone that is not one of its four or lies past the end of MSG. -/
theorem State.read_storeWord_outside (s : State) {a x : Nat} (v : Word32) (h : x < a ∨ a + 4 ≤ x ∨ s.msgBytes ≤ x) :
    (s.storeWord a v).mem.read x = s.mem.read x := by
  rcases s.storeWord_cases a v with ⟨-, e⟩ | ⟨hr, e⟩ <;> rw [e]
  · rfl
  · exact Memory.read_writeWord_other _ v (by omega)

/-! ## A row of words -/

/-- What WRMs of the words `vs` from `a` on make of an idle state. -/
def State.storeWords (s : State) (a : Nat) : List Word32 → State
  | [] => s
  | v :: vs => (s.storeWord a v).storeWords (a + 4) vs

/-- The host lines that WRM the words `vs` from `a` on. -/
def wrmLines (a : Nat) : List Word32 → List HostLine
  | [] => []
  | v :: vs => wrmLine a v :: wrmLines (a + 4) vs

theorem map_wrmLine_range (n a : Nat) (f : Nat → Word32) :
    (List.range n).map (fun j => wrmLine (a + 4 * j) (f j)) = wrmLines a ((List.range n).map f) := by
  induction n generalizing a f with
  | zero => rfl
  | succ n ih =>
    rw [List.range_succ_eq_map, List.map_cons, List.map_cons, List.map_map, List.map_map, wrmLines, ← ih]
    refine congrArg (wrmLine a (f 0) :: ·) (List.map_congr_left fun j _ => ?_)
    rw [Function.comp, Function.comp, show a + 4 * (j + 1) = a + 4 + 4 * j by omega]

/-- The words of a byte string, its last filled with 0x00 (R88). -/
def stringWords (bytes : List Byte) : List Word32 := (List.range ((bytes.length + 3) / 4)).map (stringWord bytes)

@[simp] theorem length_stringWords (bytes : List Byte) : (stringWords bytes).length = (bytes.length + 3) / 4 := by
  simp [stringWords]

/-- The lines of LOADMSG are the WRMs of the words of the string (R88). -/
theorem expand_loadMsg (a : Nat) (bytes : List Byte) : (Pseudo.loadMsg a bytes).expand = wrmLines a (stringWords bytes) :=
  map_wrmLine_range _ a _

theorem State.storeWords_program (s : State) (a : Nat) (vs : List Word32) (p : List HostLine) :
    { s with program := p : State }.storeWords a vs = { s.storeWords a vs with program := p } := by
  induction vs generalizing s a with
  | nil => rfl
  | cons v vs ih => rw [State.storeWords, State.storeWord_program, ih, State.storeWords]

/-- The lines of a row of words leave what the words make of the state (assumption 7). -/
theorem State.after_wrmLines {s : State} {a : Nat} {vs : List Word32} {rest : List HostLine}
    (hp : s.program = wrmLines a vs ++ rest) (ht : s.turns = []) (hb : s.busy = false) :
    s.after vs.length = { s.storeWords a vs with program := rest } := by
  induction vs generalizing s a with
  | nil =>
    rw [show rest = s.program from hp.symm]
    rfl
  | cons v vs ih =>
    have he := exec_wrm_idle (s := { s with program := wrmLines (a + 4) vs ++ rest }) hb a v
    rw [State.storeWord_program] at he
    rw [List.length_cons, State.after_succ_txn hp ht hb (decode_msgWrite 0x00#8 a v) he,
      ih (s := { s.storeWord a v with program := wrmLines (a + 4) vs ++ rest }) rfl ((s.storeWord_turns a v).trans ht)
        ((s.storeWord_busy a v).trans hb), State.storeWords_program, State.storeWords]

/-- A row of words changes MSG and ERR only. -/
theorem State.storeWords_frame (s : State) (a : Nat) (vs : List Word32) :
    s.storeWords a vs = { s with mem := (s.storeWords a vs).mem, err := (s.storeWords a vs).err } := by
  induction vs generalizing s a with
  | nil => rfl
  | cons v vs ih => rw [State.storeWords, ih, s.storeWord_frame]

/-- Words at misaligned addresses change nothing but ERR (R55, R213). -/
theorem State.storeWords_of_misaligned {s : State} {a : Nat} (ha : a % 4 ≠ 0) {vs : List Word32} (hvs : vs ≠ []) :
    s.storeWords a vs = s.raiseError .badAccess := by
  induction vs generalizing s a with
  | nil => exact absurd rfl hvs
  | cons v vs ih =>
    rw [State.storeWords, State.storeWord_of_misaligned ha]
    cases vs with
    | nil => rfl
    | cons => exact ih (by omega) (by simp)

/-- A row of words leaves every byte alone that is not one of its own or lies past the end of MSG. -/
theorem State.read_storeWords_outside {s : State} {a : Nat} {vs : List Word32} {x : Nat}
    (h : x < a ∨ a + 4 * vs.length ≤ x ∨ s.msgBytes ≤ x) : (s.storeWords a vs).mem.read x = s.mem.read x := by
  induction vs generalizing s a with
  | nil => rfl
  | cons v vs ih =>
    rw [List.length_cons] at h
    rw [State.storeWords, ih (by rw [State.storeWord_msgBytes]; omega), State.read_storeWord_outside s v (by omega)]

/-- Inside MSG, byte i of an aligned row is byte i mod 4 of word i / 4 (R52). -/
theorem State.read_storeWords_inside {s : State} {a : Nat} {vs : List Word32} {i : Nat} (hwf : s.mem.wf = true)
    (ha : a % 4 = 0) (hi : i < 4 * vs.length) (hr : a + i < s.msgBytes) :
    (s.storeWords a vs).mem.read (a + i) = wordByte (vs.getD (i / 4) 0#32) (i % 4) := by
  induction vs generalizing s a i with
  | nil => exact absurd hi (by simp)
  | cons v vs ih =>
    rw [List.length_cons] at hi
    rw [State.storeWords]
    rcases Nat.lt_or_ge i 4 with h4 | h4
    · have hrange : a + 4 ≤ s.msgBytes := by
        unfold State.msgBytes at hr ⊢
        omega
      rw [State.read_storeWords_outside (.inl (by omega)), State.storeWord_of_inRange ha hrange,
        Nat.div_eq_of_lt h4, Nat.mod_eq_of_lt h4]
      exact Memory.read_writeWord_byte hwf a v h4
    · obtain ⟨k, rfl⟩ := Nat.exists_eq_add_of_le h4
      rw [← Nat.add_assoc, ih (State.wf_storeWord hwf a v) (by omega) (by omega) (by rw [State.storeWord_msgBytes]; omega),
        Nat.add_mod_left, Nat.add_div_left k (by omega), List.getD_cons_succ]

/-- An aligned row that lies in MSG leaves ERR alone. -/
theorem State.err_storeWords_of_inRange {s : State} {a : Nat} {vs : List Word32} (ha : a % 4 = 0)
    (hr : vs = [] ∨ a + 4 * vs.length ≤ s.msgBytes) : (s.storeWords a vs).err = s.err := by
  induction vs generalizing s a with
  | nil => rfl
  | cons v vs ih =>
    have hr := hr.resolve_left (List.cons_ne_nil v vs)
    rw [List.length_cons] at hr
    rw [State.storeWords, ih (by omega) (.inr (by rw [State.storeWord_msgBytes]; omega)),
      State.storeWord_of_inRange ha (by omega)]

/-- A WRM while BUSY = 0 does not take BAD_ACCESS away. -/
theorem State.err_storeWords_of_badAccess {s : State} (h : s.err = .badAccess) (a : Nat) (vs : List Word32) :
    (s.storeWords a vs).err = .badAccess := by
  induction vs generalizing s a with
  | nil => exact h
  | cons v vs ih =>
    rw [State.storeWords]
    refine ih ?_ _
    rcases s.storeWord_cases a v with ⟨-, e⟩ | ⟨-, e⟩ <;> rw [e]
    · rfl
    · exact h

/-- A row that goes past the end of MSG raises BAD_ACCESS (R58, R213). -/
theorem State.err_storeWords_of_outOfRange {s : State} {a : Nat} {vs : List Word32} (hvs : vs ≠ [])
    (hr : s.msgBytes < a + 4 * vs.length) : (s.storeWords a vs).err = .badAccess := by
  induction vs generalizing s a with
  | nil => exact absurd rfl hvs
  | cons v vs ih =>
    rw [List.length_cons] at hr
    rw [State.storeWords]
    rcases Nat.lt_or_ge s.msgBytes (a + 4) with h | h
    · rw [State.storeWord_of_outOfRange h]
      exact State.err_storeWords_of_badAccess rfl _ _
    · refine ih (fun hnil => ?_) (by rw [State.storeWord_msgBytes]; omega)
      rw [hnil, List.length_nil] at hr
      omega

/-! ## The words of a string -/

theorem wordByte_stringWord (bytes : List Byte) (j : Nat) {q : Nat} (hq : q < 4) :
    wordByte (stringWord bytes j) q = bytes.getD (4 * j + q) 0x00#8 := by
  obtain ⟨h0, h1, h2, h3⟩ := wordByte_packWord (bytes.getD (4 * j) 0x00#8) (bytes.getD (4 * j + 1) 0x00#8)
    (bytes.getD (4 * j + 2) 0x00#8) (bytes.getD (4 * j + 3) 0x00#8)
  interval_cases q
  · exact h0
  · exact h1
  · exact h2
  · exact h3

/-- Byte i of the words of a string is byte i of the string, or 0x00 past its end (R88). -/
theorem wordByte_stringWords (bytes : List Byte) {i : Nat} (hi : i < 4 * ((bytes.length + 3) / 4)) :
    wordByte ((stringWords bytes).getD (i / 4) 0#32) (i % 4) = bytes.getD i 0x00#8 := by
  have hj : i / 4 < (bytes.length + 3) / 4 := by omega
  rw [stringWords, List.getD_eq_getElem?_getD, List.getElem?_map, List.getElem?_range hj, Option.map_some, Option.getD_some,
    wordByte_stringWord bytes _ (Nat.mod_lt i (by omega)), Nat.div_add_mod]

theorem stringWords_eq_nil_iff (bytes : List Byte) : stringWords bytes = [] ↔ (bytes.length + 3) / 4 = 0 := by
  rw [← length_stringWords, List.length_eq_zero_iff]

/-- Settles O55: the steps perform the WRMs of the words of the string; what a row of words leaves is said above. -/
theorem loadMsgStoresTheString : Obligations.LoadMsgStoresTheString := by
  intro s a bytes rest hwf hp ht hb n
  have hn : (stringWords bytes).length = n := length_stringWords bytes
  have hnil : stringWords bytes = [] ↔ n = 0 := stringWords_eq_nil_iff bytes
  rw [expand_loadMsg] at hp
  have hrun := State.after_wrmLines hp ht hb
  rw [hn] at hrun
  refine ⟨_, hrun, ?_, fun ha => ⟨fun i hi hr => ?_, fun x hx => ?_, fun h => ?_, fun h0 hr => ?_⟩, fun ha => ?_⟩
  · rw [s.storeWords_frame]
  · exact (State.read_storeWords_inside hwf ha (by rwa [hn]) hr).trans (wordByte_stringWords bytes hi)
  · exact State.read_storeWords_outside (by rwa [hn])
  · exact State.err_storeWords_of_inRange ha (by rwa [hn, hnil])
  · exact State.err_storeWords_of_outOfRange (by rw [Ne, hnil]; omega) (by rwa [hn])
  · rcases Nat.eq_zero_or_pos n with h0 | hpos
    · rw [hnil.2 h0]
      exact ⟨rfl, fun _ => rfl, fun h => absurd h0 h.ne'⟩
    · rw [State.storeWords_of_misaligned ha (by rw [Ne, hnil]; omega)]
      exact ⟨rfl, fun h => absurd h hpos.ne', fun _ => rfl⟩

end Sys2Proof.Machine
end

section
/-!
PROOFS. The bit mixer (40_bit_mixer.md): what each primitive does to one bit, and the laws that follow bit by bit.
-/

namespace Sys2Proof.Machine

variable {w : Nat}

/-! ## ROTR and SHR -/

/-- The model's ROTR is the library's rotation: at amount 0 the right shift is the whole word (R104). -/
theorem rotr_eq_rotateRight (x : BitVec w) (n : Nat) : rotr x n = x.rotateRight n := by
  rw [rotr, BitVec.rotateRight_def]
  split
  next h => rw [h, BitVec.ushiftRight_zero, Nat.sub_zero, BitVec.shiftLeft_eq_zero (Nat.le_refl w), BitVec.or_zero]
  next => rfl

/-- Bit i of a rotation, by whether i + n mod w runs past the top of the word (R104). -/
theorem getLsbD_rotr (x : BitVec w) (n : Nat) {i : Nat} (hi : i < w) :
    (rotr x n).getLsbD i = x.getLsbD ((i + n) % w) := by
  have hn : n % w < w := Nat.mod_lt n (by omega)
  rw [rotr_eq_rotateRight, BitVec.getLsbD_rotateRight, Nat.add_mod, Nat.mod_eq_of_lt hi]
  rcases Nat.lt_or_ge i (w - n % w) with h | h
  · rw [decide_eq_true h, cond_true, Nat.mod_eq_of_lt (a := i + n % w) (by omega), Nat.add_comm]
  · have hwrap : (i + n % w) % w = i - (w - n % w) := by
      rw [Nat.mod_eq_sub_mod (by omega), Nat.mod_eq_of_lt (by omega)]
      omega
    rw [decide_eq_false (by omega), cond_false, decide_eq_true hi, Bool.true_and, hwrap]

theorem rotr_xor (x y : BitVec w) (n : Nat) : rotr (x ^^^ y) n = rotr x n ^^^ rotr y n := by
  apply BitVec.eq_of_getLsbD_eq
  intro i hi
  simp only [BitVec.getLsbD_xor, getLsbD_rotr _ _ hi]

theorem rotr_rotr (x : BitVec w) (m n : Nat) : rotr (rotr x m) n = rotr x (m + n) := by
  apply BitVec.eq_of_getLsbD_eq
  intro i hi
  rw [getLsbD_rotr _ n hi, getLsbD_rotr x m (Nat.mod_lt _ (by omega)), getLsbD_rotr x _ hi, Nat.mod_add_mod,
    Nat.add_assoc, Nat.add_comm n m]

theorem rotr_allOnes (w n : Nat) : rotr (BitVec.allOnes w) n = BitVec.allOnes w := by
  apply BitVec.eq_of_getLsbD_eq
  intro i hi
  have hmod : (i + n) % w < w := Nat.mod_lt _ (by omega)
  rw [getLsbD_rotr _ n hi, BitVec.getLsbD_allOnes, BitVec.getLsbD_allOnes, decide_eq_true hmod, decide_eq_true hi]

theorem shr_xor (x y : BitVec w) (n : Nat) : shr (x ^^^ y) n = shr x n ^^^ shr y n := BitVec.ushiftRight_xor_distrib x y n

/-! ## The sigma functions -/

/-- Why an XOR of three functions, each linear over XOR, is linear over XOR. -/
theorem xor_xor_xor_interchange (a b c a' b' c' : BitVec w) :
    (a ^^^ a') ^^^ (b ^^^ b') ^^^ (c ^^^ c') = (a ^^^ b ^^^ c) ^^^ (a' ^^^ b' ^^^ c') := by
  ac_rfl

theorem smallSigma_xor (q : Amounts) (x y : BitVec w) :
    smallSigma q (x ^^^ y) = smallSigma q x ^^^ smallSigma q y := by
  simp only [smallSigma, rotr_xor, shr_xor, xor_xor_xor_interchange]

theorem bigSigma_xor (q : Amounts) (x y : BitVec w) : bigSigma q (x ^^^ y) = bigSigma q x ^^^ bigSigma q y := by
  simp only [bigSigma, rotr_xor, xor_xor_xor_interchange]

/-- A function linear over XOR is 0 at 0. -/
theorem eq_zero_of_xor_linear {f : BitVec w → BitVec w} (hf : ∀ x y, f (x ^^^ y) = f x ^^^ f y) : f 0#w = 0#w := by
  calc f 0#w = f (0#w ^^^ 0#w) := by rw [BitVec.xor_self]
    _ = f 0#w ^^^ f 0#w := hf _ _
    _ = 0#w := BitVec.xor_self

/-- Σ of the all-ones word is an XOR of three all-ones words (R116). -/
theorem bigSigma_allOnes (q : Amounts) (w : Nat) : bigSigma q (BitVec.allOnes w) = BitVec.allOnes w := by
  rw [bigSigma, rotr_allOnes, rotr_allOnes, rotr_allOnes, BitVec.xor_self, BitVec.zero_xor]

theorem smallSigma_eq_rotateRight (q : Amounts) (x : BitVec w) :
    smallSigma q x = x.rotateRight q.first ^^^ x.rotateRight q.second ^^^ x >>> q.third := by
  rw [smallSigma, rotr_eq_rotateRight, rotr_eq_rotateRight, shr]

theorem bigSigma_eq_rotateRight (q : Amounts) (x : BitVec w) :
    bigSigma q x = x.rotateRight q.first ^^^ x.rotateRight q.second ^^^ x.rotateRight q.third := by
  rw [bigSigma, rotr_eq_rotateRight, rotr_eq_rotateRight, rotr_eq_rotateRight]

/-! ## CH and MAJ -/

/-- CH selects by the first operand's bit (R105). -/
theorem getLsbD_ch (e f g : BitVec w) {i : Nat} (hi : i < w) :
    (ch e f g).getLsbD i = if e.getLsbD i then f.getLsbD i else g.getLsbD i := by
  rw [ch, BitVec.getLsbD_xor, BitVec.getLsbD_and, BitVec.getLsbD_and, BitVec.getLsbD_not, decide_eq_true hi]
  cases e.getLsbD i <;> simp

/-- MAJ votes bit by bit (R106). -/
theorem getLsbD_maj (a b c : BitVec w) (i : Nat) :
    (maj a b c).getLsbD i =
      (a.getLsbD i && b.getLsbD i || a.getLsbD i && c.getLsbD i || b.getLsbD i && c.getLsbD i) := by
  simp only [maj, BitVec.getLsbD_xor, BitVec.getLsbD_and]
  cases a.getLsbD i <;> cases b.getLsbD i <;> simp

theorem ch_eq_or (e f g : BitVec w) : ch e f g = (e &&& f) ||| (~~~e &&& g) := by
  apply BitVec.eq_of_getLsbD_eq
  intro i hi
  rw [getLsbD_ch e f g hi, BitVec.getLsbD_or, BitVec.getLsbD_and, BitVec.getLsbD_and, BitVec.getLsbD_not,
    decide_eq_true hi]
  cases e.getLsbD i <;> simp

theorem maj_eq_or (a b c : BitVec w) : maj a b c = (a &&& b) ||| (a &&& c) ||| (b &&& c) := by
  apply BitVec.eq_of_getLsbD_eq
  intro i _
  simp only [getLsbD_maj, BitVec.getLsbD_or, BitVec.getLsbD_and]

/-- Where a and b differ, c decides the vote; where they agree, it is theirs (R116). -/
theorem maj_eq_ch (a b c : BitVec w) : maj a b c = ch (a ^^^ b) c a := by
  apply BitVec.eq_of_getLsbD_eq
  intro i hi
  rw [getLsbD_maj, getLsbD_ch _ _ _ hi, BitVec.getLsbD_xor]
  cases a.getLsbD i <;> cases b.getLsbD i <;> simp

/-! ## The obligations -/

/-- Settles O31: the library's rotation, its two ranges of bits put into one index mod w. -/
theorem rotrMovesBits : Obligations.RotrMovesBits := fun _ x n _ hi => getLsbD_rotr x n hi

/-- Settles O34, law by law; σ(0) = 0 comes from linearity. -/
theorem bitMixerLaws : Obligations.BitMixerLaws := fun _ x y z m n q =>
  ⟨rotr_xor x y n, shr_xor x y n, smallSigma_xor q x y, bigSigma_xor q x y, eq_zero_of_xor_linear (smallSigma_xor q),
    eq_zero_of_xor_linear (bigSigma_xor q), rotr_rotr x m n, ch_eq_or x y z, maj_eq_or x y z, maj_eq_ch x y z,
    bigSigma_allOnes q _⟩

/-- Settles O32, by the values of the bits. -/
theorem chooseAndMajorityBits : Obligations.ChooseAndMajorityBits := fun _ x y z i hi =>
  ⟨getLsbD_ch x y z hi, getLsbD_maj x y z i⟩

/-- Settles O33: the amounts are the descriptor's (R20). -/
theorem sigmaFunctions : Obligations.SigmaFunctions :=
  ⟨fun x => ⟨smallSigma_eq_rotateRight desc32.s0 x, smallSigma_eq_rotateRight desc32.s1 x,
      bigSigma_eq_rotateRight desc32.u0 x, bigSigma_eq_rotateRight desc32.u1 x⟩,
    fun x => ⟨smallSigma_eq_rotateRight desc64.s0 x, smallSigma_eq_rotateRight desc64.s1 x,
      bigSigma_eq_rotateRight desc64.u0 x, bigSigma_eq_rotateRight desc64.u1 x⟩⟩

end Sys2Proof.Machine
end

section
/-!
PROOFS. The padder (41_padder_segmenter.md R133 to R138): the block count in closed form, the cases of the padded byte function,
and the length field, which decodes to the recorded bit length.
-/

namespace Sys2Proof.Machine

variable {w : Nat}

/-! ## Padded length and block count -/

/-- The padding adds the 0x80 byte, less than a block of zeros and the length field (R133, R134). -/
theorem paddedLength_bounds {D : Desc w} (h : 0 < D.blockBytes) (len : Nat) :
    len + D.lenBytes + 1 ≤ paddedLength D len ∧ paddedLength D len ≤ len + D.blockBytes + D.lenBytes := by
  have hz : zeroFill D len < D.blockBytes := zerosAfter_lt h (len + 1)
  rw [paddedLength]
  omega

/-- The last block is the first that ends beyond the message and its length field (R134). -/
theorem blockCount_eq {D : Desc w} (h : D.Sized) (len : Nat) :
    blockCount D len = (len + D.lenBytes) / D.blockBytes + 1 := by
  obtain ⟨hlow, hhigh⟩ := paddedLength_bounds h.blockPos len
  obtain ⟨n, hn⟩ := Nat.exists_eq_succ_of_ne_zero (blockCount_pos h len).ne'
  have hmul := blockCount_mul h.blockPos len
  rw [hn, Nat.succ_mul] at hmul
  have hdiv : (len + D.lenBytes) / D.blockBytes = n :=
    Nat.div_eq_of_lt_le (by omega) (by rw [Nat.succ_mul]; omega)
  rw [hn, hdiv]

/-! ## The cases of the padded byte function (R135) -/

theorem paddedByte_message (D : Desc w) (msg : Nat → Byte) {len p : Nat} (hp : p < len) :
    paddedByte D msg len p = msg p := if_pos hp

@[simp] theorem paddedByte_length (D : Desc w) (msg : Nat → Byte) (len : Nat) : paddedByte D msg len len = 0x80#8 := by
  simp [paddedByte]

theorem paddedByte_zero {D : Desc w} (msg : Nat → Byte) {len p : Nat} (hlen : len < p)
    (hp : p < paddedLength D len - D.lenBytes) : paddedByte D msg len p = 0x00#8 := by
  rw [paddedByte, if_neg (by omega), if_neg (by omega), if_pos hp]

theorem paddedByte_lengthField {D : Desc w} (msg : Nat → Byte) {len p : Nat} (hp : paddedLength D len - D.lenBytes ≤ p) :
    paddedByte D msg len p = beByte D.lenBytes (bitLength D len) (p - (paddedLength D len - D.lenBytes)) := by
  have hP : paddedLength D len = len + 1 + zeroFill D len + D.lenBytes := rfl
  rw [paddedByte, if_neg (by omega), if_neg (by omega), if_neg (by omega)]

/-! ## The length field -/

/-- BEdec inverts BE_k on words of k bytes (R10). -/
theorem beWord_beByte {k : Nat} (x : BitVec (8 * k)) : beWord (8 * k) (beByte k x.toNat) k = x := by
  apply BitVec.eq_of_getLsbD_eq
  intro i hi
  rw [getLsbD_beWord _ hi hi, beByte_toNat, BitVec.getLsbD_extractLsb', decide_eq_true (by omega), Bool.true_and,
    show 8 * (k - 1 - (k - 1 - i / 8)) + i % 8 = i by omega]

/-- Byte q of the length field of the padded message (R132). -/
theorem getD_pad_lengthField {D : Desc w} (h : 0 < D.blockBytes) (m : List Byte) {q : Nat} (hq : q < D.lenBytes) :
    (pad D m).getD ((pad D m).length - D.lenBytes + q) 0#8 = beByte D.lenBytes (bitLength D m.length) q := by
  obtain ⟨hlow, -⟩ := paddedLength_bounds h m.length
  rw [length_pad h, List.getD_eq_getElem?_getD, getElem?_pad h m (by omega), Option.getD_some,
    paddedByte_lengthField _ (Nat.le_add_right _ _), Nat.add_sub_cancel_left]

/-- The length field decodes to the recorded bit length (R138). -/
theorem toNat_beWord_lengthField {D : Desc w} (h : 0 < D.blockBytes) (m : List Byte) :
    (beWord (8 * D.lenBytes) (fun q => (pad D m).getD ((pad D m).length - D.lenBytes + q) 0#8) D.lenBytes).toNat =
      bitLength D m.length := by
  have hbits : bitLength D m.length = (BitVec.ofNat (8 * D.lenBytes) (8 * m.length)).toNat := by
    rw [BitVec.toNat_ofNat, bitLength]
  rw [beWord_congr fun q hq => getD_pad_lengthField h m hq, hbits]
  exact congrArg BitVec.toNat (beWord_beByte _)

/-! ## The obligations -/

/-- Settles O35: P is a multiple of bs that exceeds L + lf by at least one byte and at most a block. -/
theorem blockCountClosedForm : Obligations.BlockCountClosedForm := by
  intro F len
  have hD := descOf_sized F
  obtain ⟨hlow, hhigh⟩ := paddedLength_bounds hD.blockPos len
  exact ⟨rfl, blockCount_eq hD len, paddedLength_mod hD.blockPos len, blockCount_pos hD len, hlow, hhigh,
    blockCount_mul hD.blockPos len⟩

/-- Settles O36: the loop's bytes are those of the padded byte function, whose cases are those of R135. -/
theorem paddedBytesAreTheLoops : Obligations.PaddedBytesAreTheLoops := by
  intro F m
  have hbs := (descOf_sized F).blockPos
  refine ⟨length_pad hbs m, fun p hp => ⟨getElem?_pad hbs m hp, fun hmsg => ?_, ?_, paddedByte_zero _, fun hfield => ?_⟩⟩
  · rw [paddedByte_message _ _ hmsg, List.getD_eq_getElem _ _ hmsg, List.getElem?_eq_getElem hmsg]
  · rintro rfl
    exact paddedByte_length _ _ _
  · rw [paddedByte_lengthField _ hfield]
    exact getElem?_beBytes _ (by omega)

/-- Settles O37: the loop completes the block, and the length field holds the bit length. -/
theorem paddingInvariant : Obligations.PaddingInvariant := by
  intro F m
  have hbs := (descOf_sized F).blockPos
  exact ⟨by rw [length_pad hbs, paddedLength_mod hbs], toNat_beWord_lengthField hbs m⟩

end Sys2Proof.Machine
end

section
/-!
PROOFS. The message schedule (42_message_schedule.md R150, R151): its length, its decoded words and the recurrence of the others.
-/

namespace Sys2Proof.Machine

variable {w : Nat}

theorem length_schedule {D : Desc w} (hD : D.Sized) (block : List Byte) : (schedule D block).length = D.rounds := by
  rw [schedule, length_expandWords, length_decodeWords, Nat.add_sub_cancel' hD.rounds16.le]

/-- Decoded word j is the big-endian decoding of the wb bytes from j·wb on (R150). -/
theorem getD_decodeWords (D : Desc w) (block : List Byte) {j : Nat} (hj : j < 16) :
    (decodeWords D block).getD j 0#w = beWord w (fun i => block.getD (j * D.wordBytes + i) 0#8) D.wordBytes := by
  rw [decodeWords, List.getD_eq_getElem?_getD, List.getElem?_map, List.getElem?_range hj, Option.map_some, Option.getD_some]

/-- The first 16 schedule words are decoded from the block (R150). -/
theorem schedule_getD_decoded {D : Desc w} (hD : D.Sized) (block : List Byte) {j : Nat} (hj : j < 16) :
    (schedule D block).getD j 0#w = beWord w (fun i => block.getD (j * D.wordBytes + i) 0#8) D.wordBytes := by
  rw [schedule_getD D hD block (hj.trans hD.rounds16), if_pos hj, getD_decodeWords D block hj]

/-- The other schedule words obey the recurrence (R151). -/
theorem schedule_getD_expanded {D : Desc w} (hD : D.Sized) (block : List Byte) {i : Nat} (h16 : 16 ≤ i) (hi : i < D.rounds) :
    (schedule D block).getD i 0#w =
      nextWord D ((schedule D block).getD (i - 16) 0#w) ((schedule D block).getD (i - 15) 0#w)
        ((schedule D block).getD (i - 7) 0#w) ((schedule D block).getD (i - 2) 0#w) := by
  rw [schedule_getD D hD block hi, if_neg h16.not_gt]

/-- Settles O38: n - 16 words are appended to the 16 decoded ones, each by the recurrence. -/
theorem scheduleWords : Obligations.ScheduleWords := by
  intro F block
  have hD := descOf_sized F
  exact ⟨length_schedule hD block, fun _ hj => schedule_getD_decoded hD block hj,
    fun _ h16 hi => schedule_getD_expanded hD block h16 hi⟩

end Sys2Proof.Machine
end

section
/-!
PROOFS. The compression (43_compression.md R170 to R183): the constant tables, one round and the fold word by word, the threading
of the blocks, and the bytes of the digest.
-/

namespace Sys2Proof.Machine

variable {w : Nat}

/-- The fold adds number by number (R177). -/
@[simp] theorem word_foldInto (h v : Octet w) (k : Nat) : (foldInto h v).word k = h.word k + v.word k := by
  unfold Octet.word foldInto
  split <;> rfl

/-- The digest has wb bytes for each of the eight accumulators (R180). -/
@[simp] theorem length_digestBytes (D : Desc w) (h : Octet w) : (digestBytes D h).length = 8 * D.wordBytes := by
  rw [digestBytes, length_flatMap_range (fun k => length_beBytes _ _), Nat.mul_comm]

/-! ## The obligations -/

/-- Settles O42: eight strings of wb bytes stand in a row, string k being the big-endian bytes of H[k]. -/
theorem digestBytes_layout : Obligations.DigestBytes := fun F h =>
  ⟨length_digestBytes (descOf F) h, fun _ _ hk hq => getElem?_digestBytes (descOf F) h hk hq⟩

/-- Settles O43: the micro-steps of b blocks bring the sequence to the state threaded through the first b of them. -/
theorem sequenceThreadsBlocks : Obligations.SequenceThreadsBlocks := by
  intro e msg b D blocks hb r
  have hD := descOf_sized e.famL
  obtain ⟨work, sched, hr⟩ := Engine.run_blocks hD msg e hb
  have hthreaded : r = e.threaded D blocks b work sched := hr
  rw [hthreaded]
  exact ⟨rfl, length_blocksOf_paddedMessage hD.blockPos msg _, rfl, rfl⟩

/-- Settles O40: the round's tuple is the model's own, and the fold adds number by number. -/
theorem roundAndFold : Obligations.RoundAndFold := fun _ _ _ v h =>
  ⟨rfl, fun k _ => word_foldInto h v k⟩

/-- Settles O41, by evaluating the tables, which are fixed data. -/
theorem constantTablesAgree : Obligations.ConstantTablesAgree :=
  ⟨rfl, rfl, by decide, by decide⟩

end Sys2Proof.Machine
end

section
/-!
PROOFS. A transaction and the completion as steps (44_commands.md R200, R203), and the commands (44_commands.md R201, R202, R204,
R205): HASH, CLEAR and an illegal word, on a line of their own and as the data of a WR CMD.
-/

namespace Sys2Proof.Machine

/-! ## Steps (R200, R203) -/

/-- At the host's turn a step performs the transaction on its next line (R61, R200). -/
theorem step_txn_of_hostTurn {s : State} {w : HostWord} {rest : List HostLine} {ts : List Turn}
    (hp : s.program = .txn w :: rest) (ht : s.turns = .host :: ts) :
    step s = exec (decode w) { s with program := rest, turns := ts } :=
  step_of_transact ((State.nextMove_host ht).trans (State.hostMove_txn hp))

/-- Settles O6, by whose turn it is; `withHostWord` gives the host the turn. -/
theorem stepRunsTheDecodedTransaction : Obligations.StepRunsTheDecodedTransaction := fun _ _ =>
  ⟨step_txn_of_hostTurn rfl rfl, fun _ _ hp ht => step_txn_of_hostTurn hp ht,
    fun _ hp ht hb => step_of_transact ((State.nextMove_noTurn_idle ht hb).trans (State.hostMove_txn hp))⟩

/-- Settles O44: the core's turn is the completion, and completion puts SHA_F of the message into H. -/
theorem completionComputesSha : Obligations.CompletionComputesSha := by
  refine fun s => ⟨fun hb hc => ?_, fun ts ht hb => ?_⟩
  · exact absurd (State.busy_of_nextMove_complete hc) (by simp [hb])
  · have hmove := State.nextMove_core_busy ht hb
    exact ⟨congrArg Prod.fst hmove, _, step_of_complete hmove, rfl, State.complete_acc _, rfl⟩

/-! ## Writes, by BUSY (R273) -/

/-- An instruction whose meaning is a write to CMD, LEN or MSG is dropped with BUSY_WRITE while BUSY = 1 (R273). -/
theorem exec_write_busy {i : Instr} {s : State} {f : State → State} (h : exec i s = .next (s.writeUnlessBusy f))
    (hb : s.busy = true) : exec i s = .next { s with err := .busyWrite } := by
  rw [h, State.writeUnlessBusy_busy hb]
  rfl

/-- An instruction whose meaning is a write to CMD, LEN or MSG is performed while BUSY = 0 (R273). -/
theorem exec_write_idle {i : Instr} {s : State} {f : State → State} (h : exec i s = .next (s.writeUnlessBusy f))
    (hb : s.busy = false) : exec i s = .next (f s) := by
  rw [h, State.writeUnlessBusy_idle hb]

/-! ## HASH (R202) -/

/-- A HASH while BUSY = 0 with LEN out of range raises LEN_RANGE only (R202). -/
theorem exec_hash_rejects {s : State} {i : Instr} {F : Family} (hi : i = .hash256 ∧ F = .f32 ∨ i = .hash512 ∧ F = .f64)
    (hb : s.busy = false) (hl : s.msgBytes < s.len.toNat) : exec i s = .next { s with err := .lenRange } := by
  have hwrite : exec i s = .next (s.writeUnlessBusy fun s => s.hashAccept F) := by
    rcases hi with ⟨rfl, rfl⟩ | ⟨rfl, rfl⟩ <;> rfl
  rw [exec_write_idle hwrite hb, State.hashAccept, if_pos hl]
  rfl

/-- Settles O8, by the range of LEN; DVALID = 0 gates the DIGEST reads. -/
theorem hashIsAcceptedOrOutOfRange : Obligations.HashIsAcceptedOrOutOfRange := fun s F _ hi hb =>
  ⟨fun hl => ⟨s.accepted F, exec_hash_accepts hi hb hl, rfl, exec_rdDigest_of_not_valid rfl⟩, exec_hash_rejects hi hb⟩

/-! ## CLEAR (R204) -/

@[simp] theorem Octet.word_zero (w k : Nat) : (Octet.zero w).word k = 0#w := by
  unfold Octet.word Octet.zero
  split <;> rfl

/-- Settles O10: CLEAR leaves zeros in H and in every field of STATUS, and DVALID = 0 gates the DIGEST reads. -/
theorem clearWipesDigestAndError : Obligations.ClearWipesDigestAndError :=
  ⟨rfl, rfl, fun s hb => ⟨s.clearCommand, exec_write_idle rfl hb, rfl, fun k _ => Octet.word_zero 64 k,
    State.statusWord_eq_zero rfl rfl rfl hb, exec_rdDigest_of_not_valid rfl⟩⟩

/-! ## Illegal words (R205) -/

/-- Every word but the three listed ones is illegal (R84). -/
theorem legalCommand_eq_false {v : Word32} (h1 : v ≠ 0x00000001#32) (h11 : v ≠ 0x00000011#32) (h2 : v ≠ 0x00000002#32) :
    legalCommand v = false := by
  rw [← Bool.not_eq_true, legalCommand_iff]
  simp [h1, h11, h2]

/-- Settles O11: an illegal word is a write that raises ILLEGAL_CMD, in both forms. -/
theorem illegalCommandSetsErrOnly : Obligations.IllegalCommandSetsErrOnly := by
  intro v s h1 h11 h2
  have hline : exec (.illegalCmd v) s = .next (s.writeUnlessBusy fun s => s.raiseError .illegalCmd) := rfl
  have hwrCmd := exec_wrCmd_illegal (legalCommand_eq_false h1 h11 h2) s
  exact ⟨fun hb => ⟨exec_write_idle hline hb, exec_write_idle hwrCmd hb⟩,
    fun hb => ⟨exec_write_busy hline hb, exec_write_busy hwrCmd hb⟩⟩

/-! ## WR CMD (R201) -/

/-- Settles O9: a legal word acts as its command line does, and the others are illegal. -/
theorem wrCmdSelectsTheCommand : Obligations.WrCmdSelectsTheCommand := by
  intro v s
  refine ⟨exec_write_busy rfl, fun hb hv => ?_, fun hb h1 h11 h2 => ?_, fun F hb hv => ?_⟩
  · rw [hv]
    exact exec_write_idle (i := .clear) rfl hb
  · exact exec_write_idle (exec_wrCmd_illegal (legalCommand_eq_false h1 h11 h2) s) hb
  · have hi : decode (.cmd v) = .hash256 ∧ F = .f32 ∨ decode (.cmd v) = .hash512 ∧ F = .f64 := by
      rcases hv with ⟨rfl, rfl⟩ | ⟨rfl, rfl⟩
      · exact .inl ⟨rfl, rfl⟩
      · exact .inr ⟨rfl, rfl⟩
    rw [← commandLineActsAsWrCmd v s]
    exact ⟨exec_hash_rejects hi hb, exec_hash_accepts hi hb⟩

end Sys2Proof.Machine
end

section
/-!
PROOFS. The register accesses (44_commands.md R206 to R210, R214 to R216): the STATUS word bit by bit, LEN_LO and LEN_HI, the gated
DIGEST words, and the writes to read-only registers.
-/

namespace Sys2Proof.Machine

/-! ## STATUS (R24, R206) -/

theorem familyBit_eq_decide (F : Family) : F.bit = decide (F = .f64) := by cases F <;> rfl

/-- The bits of STATUS between BUSY and ERR (R24). -/
theorem State.statusWord_flags (s : State) :
    s.statusWord.getLsbD 1 = s.dvalid ∧ s.statusWord.getLsbD 2 = s.fam.bit ∧ s.statusWord.getLsbD 3 = false := by
  simp only [State.statusWord, BitVec.getLsbD_setWidth, BitVec.getLsbD_append, BitVec.getLsbD_ofBool]
  simp

/-- From bit 4 on STATUS has the bits of the code of ERR, and zeros past them (R24). -/
theorem State.statusWord_getLsbD_four_add (s : State) (i : Nat) :
    s.statusWord.getLsbD (4 + i) = s.err.code.getLsbD i := by
  have hpast := s.err.code.getLsbD_of_ge i
  simp only [State.statusWord, BitVec.getLsbD_setWidth, BitVec.getLsbD_append]
  grind

theorem State.statusWord_err (s : State) : s.statusWord.extractLsb' 4 4 = s.err.code := by
  refine BitVec.eq_of_getLsbD_eq fun i hi => ?_
  rw [BitVec.getLsbD_extractLsb', s.statusWord_getLsbD_four_add, decide_eq_true hi, Bool.true_and]

theorem State.statusWord_reserved (s : State) : s.statusWord.extractLsb' 8 24 = 0#24 := by
  refine BitVec.eq_of_getLsbD_eq fun i _ => ?_
  have hpast : s.err.code.getLsbD (4 + i) = false := s.err.code.getLsbD_of_ge _ (Nat.le_add_right 4 i)
  rw [BitVec.getLsbD_extractLsb', show 8 + i = 4 + (4 + i) by omega, s.statusWord_getLsbD_four_add, hpast, Bool.and_false,
    BitVec.getLsbD_zero]

/-- Settles O13, by the fields of the STATUS word. -/
theorem rdStatusReturnsTheFields : Obligations.RdStatusReturnsTheFields := by
  intro s
  obtain ⟨hdvalid, hfam, hbit3⟩ := s.statusWord_flags
  exact ⟨s.statusWord, rfl, s.statusWord_getLsbD_zero, hdvalid, hfam.trans (familyBit_eq_decide s.fam), hbit3, s.statusWord_err,
    s.statusWord_reserved⟩

/-! ## LEN_LO, LEN_HI and CMD (R207, R210, R214 to R216) -/

/-- Settles O15, by BUSY. -/
theorem wrLenLoStoresTheLowHalf : Obligations.WrLenLoStoresTheLowHalf := fun v _ =>
  ⟨fun hb => exec_wrLenLo_idle hb v, exec_write_busy rfl⟩

/-- Settles O16, by BUSY. -/
theorem wrLenHiStoresTheHighHalf : Obligations.WrLenHiStoresTheHighHalf := fun v _ =>
  ⟨fun hb => exec_wrLenHi_idle hb v, exec_write_busy rfl⟩

/-- Settles O17: each meaning is the read of its value. -/
theorem registerReadsReturnTheirValue : Obligations.RegisterReadsReturnTheirValue := fun _ => ⟨rfl, rfl, rfl⟩

/-! ## DIGEST (R208, R209) -/

theorem State.digestWord_f32 {s : State} (hv : s.dvalid = true) (hF : s.fam = .f32) (j : Fin 16) :
    s.digestWord j = if j.val < 8 then (s.engine.acc.word j.val).extractLsb' 0 32 else 0x00000000#32 := by
  rw [State.digestWord, if_neg (by simp [hv]), hF]

theorem State.digestWord_f64 {s : State} (hv : s.dvalid = true) (hF : s.fam = .f64) (j : Fin 16) :
    s.digestWord j = if j.val % 2 = 0 then (s.engine.acc.word (j.val / 2)).extractLsb' 32 32
      else (s.engine.acc.word ((j.val - 1) / 2)).extractLsb' 0 32 := by
  rw [State.digestWord, if_neg (by simp [hv]), hF]

/-- Settles O18, by DVALID, the family and the place j. -/
theorem rdDigestIsGated : Obligations.RdDigestIsGated := by
  intro s j
  refine ⟨s.digestWord j, rfl, fun hv => State.digestWord_of_not_valid hv j, fun hv hF hj => ?_, fun hv hF hj => ?_,
    fun hv hF hj => ?_, fun hv hF hj => ?_⟩
  · rw [State.digestWord_f32 hv hF, if_pos hj]
  · rw [State.digestWord_f32 hv hF, if_neg hj.not_gt]
  · rw [State.digestWord_f64 hv hF, if_pos hj]
  · rw [State.digestWord_f64 hv hF, if_neg (by omega)]

/-- Settles O20: the meaning of both writes is the bad access of a write. -/
theorem readOnlyWritesAreBadAccess : Obligations.ReadOnlyWritesAreBadAccess := fun _ _ => ⟨rfl, fun _ => rfl⟩

end Sys2Proof.Machine
end

section
/-!
PROOFS. The message memory accesses and the bad accesses (44_commands.md R211 to R213, 20_memory.md R52, R55, R58).
-/

namespace Sys2Proof.Machine

/-! ## Bad MSG addresses (R55, R58) -/

theorem State.badMsgAddress_eq_true {s : State} {a : Nat} (h : a % 4 ≠ 0 ∨ s.msgBytes < a + 4) :
    s.badMsgAddress a = true := by
  simpa [State.badMsgAddress, misaligned, State.outOfRange] using h

/-- WRM at a bad address is dropped with BAD_ACCESS, before BUSY is looked at (R211, R243). -/
theorem exec_wrm_bad {s : State} {a : Nat} (h : a % 4 ≠ 0 ∨ s.msgBytes < a + 4) (v : Word32) :
    exec (.wrm a v) s = .next { s with err := .badAccess } := by
  change execWrm a v s = _
  rw [execWrm, if_pos (State.badMsgAddress_eq_true h)]
  rfl

/-- RDM at a bad address returns 0 and raises BAD_ACCESS (R212). -/
theorem exec_rdm_bad {s : State} {a : Nat} (h : a % 4 ≠ 0 ∨ s.msgBytes < a + 4) :
    exec (.rdm a) s = .next { s with err := .badAccess, reads := 0x00000000#32 :: s.reads } := by
  change execRdm a s = _
  rw [execRdm, if_pos (State.badMsgAddress_eq_true h)]
  rfl

/-! ## WRM and RDM (R211, R212) -/

/-- WRM at an address of MSG is a write that BUSY guards (R211). -/
theorem exec_wrm_inRange {s : State} {a : Nat} (ha : a % 4 = 0) (hr : a + 4 ≤ s.msgBytes) (v : Word32) :
    exec (.wrm a v) s = .next (s.writeUnlessBusy fun s => { s with mem := s.mem.writeWord a v }) := by
  change execWrm a v s = _
  rw [execWrm, if_neg (by simp [State.badMsgAddress_eq_false ha hr])]

/-- Settles O21, by the checks in their order; byte k of the word stored is read back at a + k (R52). -/
theorem wrmStoresFourBytes : Obligations.WrmStoresFourBytes := by
  intro a v s hwf
  refine ⟨fun h => exec_wrm_bad h v, fun ha hr hb => exec_write_busy (exec_wrm_inRange ha hr v) hb, fun ha hr hb => ?_⟩
  have hbyte : ∀ k, k < 4 → (s.mem.writeWord a v).read (a + k) = wordByte v k :=
    fun k hk => Memory.read_writeWord_byte hwf a v hk
  exact ⟨_, exec_wrm_stores ha hr hb v, rfl, hbyte 0 (by omega), hbyte 1 (by omega), hbyte 2 (by omega), hbyte 3 (by omega),
    fun x hx => Memory.read_writeWord_other s.mem v hx⟩

/-- Settles O22, by the check of the address. -/
theorem rdmReturnsFourBytes : Obligations.RdmReturnsFourBytes := fun _ _ =>
  ⟨exec_rdm_bad, exec_rdm_returns⟩

/-! ## Bad accesses (R213) -/

/-- Settles O25, by the direction. -/
theorem badAccessGoesOn : Obligations.BadAccessGoesOn := fun _ _ => ⟨rfl, rfl⟩

/-- Settles O24: an unmapped offset is decoded to BAD_ACCESS, a bad MSG address is met in WRM and RDM. -/
theorem badAccessesAreHarmless : Obligations.BadAccessesAreHarmless := by
  intro s off a data
  refine ⟨fun h => ?_, fun h => ?_⟩
  · have hunmapped : isMappedOffset off = false := (isMappedOffset_eq_false_iff off).2 h
    rw [decode_reg, decode_reg, decodeReg_of_unmapped hunmapped, decodeReg_of_unmapped hunmapped]
    exact badAccessGoesOn s off
  · rw [decode_msgWrite, decode_msgRead]
    exact ⟨exec_wrm_bad h data, exec_rdm_bad h⟩

end Sys2Proof.Machine
end

section
/-!
PROOFS. The errors (60_exceptions.md R240 to R245): the codes, that no step stops the machine, that an error is precise, and what
clears ERR.
-/

namespace Sys2Proof.Machine

/-! ## The codes, and going on (R240, R241, R245) -/

/-- Settles O14: the codes are those of the model's table. -/
theorem errorCodes : Obligations.ErrorCodes := ⟨rfl, rfl, rfl, rfl, rfl⟩

/-- Settles O26, by the kinds of step: a transaction goes on, and so do the moves of the other agents. -/
theorem everyStepGoesOn : Obligations.EveryStepGoesOn := by
  intro s
  rcases step_cases s with ⟨w, -, e⟩ | ⟨-, e⟩ | ⟨-, e⟩ | ⟨-, e⟩
  · obtain ⟨t, hexec, -⟩ := exec_effect (decode w) s.nextMove.2
    exact ⟨t, e.trans hexec⟩
  all_goals exact ⟨_, e⟩

/-! ## Errors are precise (R242) -/

theorem Effect.of_exec {i : Instr} {s t : State} (h : exec i s = .next t) : Effect s t := by
  obtain ⟨t', e, heffect⟩ := exec_effect i s
  cases e.symm.trans h
  exact heffect

/-- Settles O27, by the effects: those that do more than raise an error leave ERR as it was or clear it. -/
theorem errorsArePrecise : Obligations.ErrorsArePrecise := by
  intro i s t h hne hnew
  cases Effect.of_exec h with
  | error c hc => exact ⟨rfl, .inl rfl⟩
  | badRead => exact ⟨rfl, .inr rfl⟩
  | accept F hb hl => exact absurd rfl hne
  | clear hb => exact absurd rfl hne
  | _ => exact absurd rfl hnew

/-! ## What clears ERR (R244) -/

@[simp] theorem State.badAccess_err (s : State) (d : Dir) : (s.badAccess d).err = .badAccess := by rw [State.badAccess_eq]

/-- A write that leaves ERR = NONE was performed, since a dropped one raises BUSY_WRITE (R273). -/
theorem State.writeUnlessBusy_of_err_none {s : State} {f : State → State} (h : (s.writeUnlessBusy f).err = .none) :
    s.busy = false ∧ s.writeUnlessBusy f = f s := by
  rcases s.writeUnlessBusy_cases f with ⟨-, e⟩ | hperformed
  · rw [e] at h
    cases h
  · exact hperformed

/-- A HASH that leaves ERR = NONE was accepted, since a rejected one raises LEN_RANGE (R202). -/
theorem State.hashAccept_of_err_none {s : State} {F : Family} (h : (s.hashAccept F).err = .none) :
    s.hashAccept F = s.accepted F := by
  rcases s.hashAccept_cases F with ⟨-, e⟩ | ⟨-, e⟩
  · rw [e] at h
    cases h
  · exact e

theorem State.writeUnlessBusy_err_ne_none {s : State} {f : State → State} (h : (f s).err ≠ .none) :
    (s.writeUnlessBusy f).err ≠ .none := fun hn =>
  h ((State.writeUnlessBusy_of_err_none hn).2 ▸ hn)

/-- A transaction that presents no legal command word does not clear ERR (R244). -/
theorem exec_keeps_error {i : Instr} {s t : State} (hi : i.isLegalCommand = false) (h : exec i s = .next t)
    (he : s.err ≠ .none) : t.err ≠ .none := by
  suffices hkeep : ∃ t, exec i s = .next t ∧ t.err ≠ .none by
    obtain ⟨t', e, ht'⟩ := hkeep
    cases e.symm.trans h
    exact ht'
  cases i with
  | hash256 => cases hi
  | hash512 => cases hi
  | clear => cases hi
  | illegalCmd v => exact ⟨_, rfl, State.writeUnlessBusy_err_ne_none (by simp)⟩
  | wrCmd v => exact ⟨_, exec_wrCmd_illegal hi s, State.writeUnlessBusy_err_ne_none (by simp)⟩
  | wrLenLo v => exact ⟨_, rfl, State.writeUnlessBusy_err_ne_none he⟩
  | wrLenHi v => exact ⟨_, rfl, State.writeUnlessBusy_err_ne_none he⟩
  | wrStatus v => exact ⟨_, rfl, by simp⟩
  | wrDigest j v => exact ⟨_, rfl, by simp⟩
  | badAccess dir off => exact ⟨_, rfl, by simp⟩
  | wrm a v =>
    refine ⟨_, rfl, ?_⟩
    split_ifs
    · simp
    · exact State.writeUnlessBusy_err_ne_none he
  | rdm a =>
    refine ⟨_, rfl, ?_⟩
    split_ifs
    · simp
    · exact he
  | _ => exact ⟨_, rfl, he⟩

/-- The transactions that present a legal command word (R84, R201). -/
theorem isLegalCommand_iff (i : Instr) :
    i.isLegalCommand = true ↔
      (i = .hash256 ∨ i = .wrCmd 0x00000001#32) ∨ (i = .hash512 ∨ i = .wrCmd 0x00000011#32) ∨
        (i = .clear ∨ i = .wrCmd 0x00000002#32) := by
  cases i with
  | wrCmd v => simp [Instr.isLegalCommand, legalCommand_iff]
  | _ => simp [Instr.isLegalCommand]

/-- A transaction that BUSY guards and that leaves ERR = NONE was performed while BUSY = 0 (R273). -/
theorem exec_write_of_err_none {i : Instr} {s t : State} {f : State → State}
    (hwrite : exec i s = .next (s.writeUnlessBusy f)) (h : exec i s = .next t) (hn : t.err = .none) :
    s.busy = false ∧ t = f s := by
  cases hwrite.symm.trans h
  exact State.writeUnlessBusy_of_err_none hn

/-- Settles O28: only a legal command word clears ERR, and a HASH among them only where it is accepted. -/
theorem onlyHashAndClearClearErr : Obligations.OnlyHashAndClearClearErr := by
  refine fun s => ⟨fun i t h he hn => ?_, fun _ => rfl, rfl, rfl, rfl⟩
  have hlegal : i.isLegalCommand = true := by
    by_contra hi
    exact exec_keeps_error (Bool.not_eq_true _ ▸ hi) h he hn
  rcases (isLegalCommand_iff i).1 hlegal with hi | hi | hi
  · have hwrite : exec i s = .next (s.writeUnlessBusy fun s => s.hashAccept .f32) := by rcases hi with rfl | rfl <;> rfl
    obtain ⟨hb, rfl⟩ := exec_write_of_err_none hwrite h hn
    exact ⟨hb, .inl ⟨State.hashAccept_of_err_none hn, hi⟩⟩
  · have hwrite : exec i s = .next (s.writeUnlessBusy fun s => s.hashAccept .f64) := by rcases hi with rfl | rfl <;> rfl
    obtain ⟨hb, rfl⟩ := exec_write_of_err_none hwrite h hn
    exact ⟨hb, .inr (.inl ⟨State.hashAccept_of_err_none hn, hi⟩)⟩
  · have hwrite : exec i s = .next (s.writeUnlessBusy fun s => s.clearCommand) := by rcases hi with rfl | rfl <;> rfl
    obtain ⟨hb, rfl⟩ := exec_write_of_err_none hwrite h hn
    exact ⟨hb, .inr (.inr ⟨rfl, hi⟩)⟩

end Sys2Proof.Machine
end

section
/-!
PROOFS. Reset and hazards (70_reset_and_hazards.md R270, R273, R276): what a HASH in progress is safe from, what the reset event
leaves, and that every HASH ends.
-/

namespace Sys2Proof.Machine

/-! ## While BUSY = 1 (R273) -/

/-- Settles O29: every change beyond ERR and the reads needs BUSY = 0. -/
theorem nothingDisturbsARunningHash : Obligations.NothingDisturbsARunningHash := fun _ _ _ hb h =>
  (Change.of_exec h).sameButErrAndReads hb

/-- Settles O12: each meaning is a write that BUSY guards, that of WRM once its address has passed the checks. -/
theorem writesWhileBusyAreDropped : Obligations.WritesWhileBusyAreDropped := fun _ hb v =>
  ⟨exec_write_busy rfl hb, exec_write_busy rfl hb, exec_write_busy rfl hb, exec_write_busy rfl hb, exec_write_busy rfl hb,
    exec_write_busy rfl hb, fun _ ha hr => exec_write_busy (exec_wrm_inRange ha hr v) hb⟩

/-! ## The reset event (R270, R278) -/

/-- While BUSY = 0 no completion is enabled, whatever the turns are (R203). -/
theorem State.nextMove_ne_complete {s : State} (hb : s.busy = false) : s.nextMove.1 ≠ .complete := fun hc =>
  absurd (State.busy_of_nextMove_complete hc) (by simp [hb])

/-- Settles O49: the step is the reset event, whose DVALID = 0 gates the DIGEST reads and whose BUSY = 0 the completion. -/
theorem resetAbandonsTheHash : Obligations.ResetAbandonsTheHash := fun _ _ ht =>
  ⟨_, step_of_reset (State.nextMove_reset ht), rfl, rfl, rfl, rfl, State.statusWord_eq_zero rfl rfl rfl rfl, rfl, rfl, rfl, rfl,
    rfl, rfl, State.digestWord_of_not_valid rfl, fun _ => State.nextMove_ne_complete rfl⟩

/-! ## Every step uses up a turn (R276) -/

/-- A transaction leaves the turns alone. -/
theorem Effect.turns_eq {s t : State} (h : Effect s t) : t.turns = s.turns := by
  cases h <;> rfl

/-- The host's move is taken off its program, not off the turns. -/
theorem State.hostMove_turns (s : State) : s.hostMove.2.turns = s.turns := by
  unfold State.hostMove
  split
  · rfl
  · rfl
  · dsimp only
    split_ifs <;> rfl

/-- Fetching a move takes the first turn, if one is left. -/
theorem State.nextMove_turns (s : State) : s.nextMove.2.turns = s.turns.tail := by
  cases ht : s.turns with
  | nil =>
    cases hb : s.busy with
    | false => rw [State.nextMove_noTurn_idle ht hb, State.hostMove_turns, ht, List.tail_nil]
    | true => rw [State.nextMove_noTurn_busy ht hb, ht, List.tail_nil]
  | cons turn ts =>
    rw [List.tail_cons]
    cases turn with
    | host => rw [State.nextMove_host ht, State.hostMove_turns]
    | core =>
      cases hb : s.busy with
      | false => rw [State.nextMove_core_idle ht hb]
      | true => rw [State.nextMove_core_busy ht hb]
    | reset => rw [State.nextMove_reset ht]

/-- A step uses up a turn: what is done after the fetch leaves the turns alone. -/
theorem step_turns {s t : State} (h : step s = .next t) : t.turns = s.turns.tail := by
  rw [← s.nextMove_turns]
  rcases step_cases s with ⟨w, -, e⟩ | ⟨-, e⟩ | ⟨-, e⟩ | ⟨-, e⟩
  · exact (Effect.of_exec (e.symm.trans h)).turns_eq
  all_goals
    cases e.symm.trans h
    rfl

/-- Every run meets BUSY = 0: its steps use up the turns, and with none left the completion comes first (assumption 7). -/
theorem State.exists_idle_after (ts : List Turn) {s : State} (ht : s.turns = ts) :
    ∃ n, n ≤ ts.length + 1 ∧ (s.after n).busy = false := by
  induction ts generalizing s with
  | nil =>
    cases hb : s.busy with
    | false => exact ⟨0, Nat.zero_le _, hb⟩
    | true =>
      refine ⟨1, le_refl _, ?_⟩
      rw [State.after_succ (step_of_complete (State.nextMove_noTurn_busy ht hb))]
      rfl
  | cons turn ts ih =>
    obtain ⟨t, hst⟩ := everyStepGoesOn s
    have ht' : t.turns = ts := by rw [step_turns hst, ht, List.tail_cons]
    obtain ⟨n, hn, hidle⟩ := ih ht'
    refine ⟨n + 1, Nat.succ_le_succ hn, ?_⟩
    rwa [State.after_succ hst]

/-- Settles O52, by induction on the turns left; a run that meets BUSY = 0 earlier is bounded all the same. -/
theorem everyHashEnds : Obligations.EveryHashEnds := fun s _ => State.exists_idle_after s.turns rfl

end Sys2Proof.Machine
end
